-- ==== Sys2Proof/Config.lean ====
section
/-! DEFINITION. The OPEN parameters of spec/00_scope.md rule R5. They are plain data, carried in the
machine's state (notes/assumptions/4.md), so that a statement about every state is a statement about
every value of them. The machine has no free value: spec/93_implementation_defined.md part 1 says that
no behaviour is treated as "any value". -/

namespace Sys2Proof

/-- The two OPEN parameters of rule R5; `none` means no limit in both. -/
structure Config where
  /-- `MAX_STEPS`: the step-limit watchdog (spec/60_exceptions.md rule R126). -/
  maxSteps : Option Nat
  /-- `MAX_PROGRAM_LEN`: the longest program the program store accepts (spec/70_reset_and_hazards.md rule R140). -/
  maxProgramLen : Option Nat
  deriving DecidableEq, Repr

end Sys2Proof
end

