-- ==== Sys2Proof/Word.lean ====
section
/-! DEFINITION. The value domain of the Intcode Machine (spec/00_scope.md rule R5): a cell, an operand, an
address, `pc`, the input and the output register hold a mathematical integer, exact and unbounded. The
machine has no bits, so no bit vector stands anywhere in this model: `VALUE` and `ADDR` are both Lean's
`Int`, written out as such. -/

namespace Sys2Proof

/-- A finite sequence of cells, each one element of `VALUE`, numbered from 0 (R20, R21, R30). -/
abbrev Cells := List Int

end Sys2Proof
end

