-- ==== Sys2Proof/Machine/State.lean ====
section
/-! DEFINITION. The state of the Intcode Machine (spec/10_state.md rule R10 and Table R10), the reasons a
step or a host action can stop without a next state, and the state right after reset (Table R24). -/

namespace Sys2Proof.Machine

/-- The working memory `M` (R21): a finite sequence of cells, cell `i` at address `i`. Every address in
`[0, MEM_LEN)` has exactly one cell and no other address exists (R31, R32), so the list itself is the one
canonical form (notes/assumptions/1.md). -/
abbrev Memory := Cells

/-- The extent of a memory is `MEM_LEN` (R31). -/
abbrev Memory.wf (memLen : Nat) (m : Memory) : Prop := m.length = memLen

/-- The run-state register's three values (R14). -/
inductive RunState where
  | running
  | halted
  | faulted
  deriving DecidableEq, Repr

/-- The five fault causes of Table R121. -/
inductive Cause where
  /-- The instruction word is negative or its opcode is none of the nine. -/
  | unknownOpcode
  /-- An access address is outside `[0, MEM_LEN)`. -/
  | outOfBounds
  /-- `MAX_STEPS` instructions have already completed in this run. -/
  | stepLimitExceeded
  /-- A used mode digit is 2 to 9. -/
  | unknownMode
  /-- IN executes and the launch supplied no input. -/
  | noInput
  deriving DecidableEq, Repr

/-- The machine: the ten items of Table R10 under the spec's own names, and the two OPEN parameters of R5,
which no step and no launch changes (notes/assumptions/4.md). -/
structure State where
  /-- Program store, immutable after load (R20); its length defines `MEM_LEN`. -/
  P : Cells
  /-- Working memory (R21). -/
  M : Memory
  /-- Program counter, any integer (R12). -/
  pc : Int
  /-- Input register (R16). -/
  inp : Option Int
  /-- Output register (R17). -/
  out : Option Int
  /-- Run-state register (R14). -/
  run : RunState
  /-- Fault cause register (R15). -/
  fcause : Option Cause
  /-- Fault information register (R15). -/
  finfo : Option Int
  /-- `pc` of the faulting step (R15). -/
  fpc : Option Int
  /-- Count of instructions completed in this run (R18). -/
  steps : Nat
  /-- The OPEN parameters `MAX_STEPS` and `MAX_PROGRAM_LEN` (R5): the configuration, not machine state. -/
  cfg : Config
  deriving DecidableEq, Repr

/-- Why `step` answers no next state. The machine's own five faults are none of these: each is TAKEN, a
next state with `run = faulted` and the fault record written (R124, notes/assumptions/2.md). -/
inductive Fault where
  /-- Raised by `step` in `Halted`: the run is over and no step is enabled (R71). Safe: the hardware takes
  no step there either. -/
  | noStepWhenHalted
  /-- Raised by `step` in `Faulted`: the run is over and no step is enabled (R71). Safe: the hardware takes
  no step there either. -/
  | noStepWhenFaulted
  deriving DecidableEq, Repr

/-- What the model does not offer. -/
inductive Refusal where
  /-- Raised by an arm of `exec` whose instruction has no meaning yet; no arm raises it now. Safe. -/
  | notModelled (mnemonic : String)
  /-- Raised by `load`: the program is longer than `MAX_PROGRAM_LEN` and the machine holds no program
  (R140). Safe: the spec itself refuses the load. -/
  | programTooLong
  /-- Raised by `launch` in `Running`: no such transaction exists (R141, R153). Safe: the spec says a model
  must not offer it. -/
  | launchWhileRunning
  deriving DecidableEq, Repr

/-- The machine right after its reset, which is the launch (R24, R141), of a machine that holds the empty
program, without override and without input: every value is Table R24's, `P` and the configuration are
the model's choice (notes/assumptions/3.md and 4.md). -/
def State.reset : State where
  P := []
  M := []
  pc := 0
  inp := none
  out := none
  run := .running
  fcause := none
  finfo := none
  fpc := none
  steps := 0
  cfg := { maxSteps := none, maxProgramLen := none }

end Sys2Proof.Machine
end

