-- ==== Sys2Proof/Machine/Ops.lean ====
section
/-! DEFINITION. The named operations over memory and registers: the two bounds-checked accessors
(spec/20_memory.md rules R33, R34), fault entry (spec/60_exceptions.md rule R124), the `pc` updates
(spec/40_execution_cycle.md rules R79, R80), the step counter (R81) and the watchdog (R126). There is no
return from a fault: `Faulted` is terminal (R127). -/

namespace Sys2Proof.Machine

/-- What `raise F(info)` carries: the cause and the information value of Table R121. -/
structure Trap where
  cause : Cause
  info : Int
  deriving DecidableEq, Repr

/-- A part of a step: its result, or the fault it raises. Nothing of the state has been changed when it
raises, so "make none of the step's remaining writes" (spec/00_scope.md section 6.2) holds by itself. -/
abbrev Access (α : Type) := Except Trap α

/-! ### Memory -/

/-- `MEM_LEN` (R5, R31): the number of cells of `M` (notes/assumptions/10.md). -/
def memLen (s : State) : Nat := s.M.length

/-- The content of the cell at an address, none where no cell is: a negative address does not index from
the end and nothing wraps (R32, R47). -/
def cellAt (m : Memory) (a : Int) : Option Int :=
  if a < 0 then none else m[a.toNat]?

/-- `MemRead(addr, 1)` (R33). -/
def memRead (a : Int) (s : State) : Access Int :=
  match cellAt s.M a with
  | some v => .ok v
  | none => .error ⟨.outOfBounds, a⟩

/-- `M[a] <- v` of a valid address: no other cell and no other state changes (R34). -/
def setCell (a : Int) (v : Int) (s : State) : State := { s with M := s.M.set a.toNat v }

/-- `MemWrite(addr, 1, v)` (R34): the one cell changes, or nothing is written. -/
def memWrite (a : Int) (v : Int) (s : State) : Access State :=
  if a < 0 ∨ (memLen s : Int) ≤ a then .error ⟨.outOfBounds, a⟩
  else .ok (setCell a v s)

/-! ### Faults -/

/-- Fault entry (R124): `M`, `pc`, `inp`, `out` and `steps` keep their values. -/
def takeFault (t : Trap) (s : State) : State :=
  { s with run := .faulted, fcause := some t.cause, finfo := some t.info, fpc := some s.pc }

/-- Raise a fault whose information value is the instruction word `raw`, the cell at `pc` (R50, R121):
UnknownMode and NoInput (notes/assumptions/7.md). -/
def raiseWithWord {α : Type} (c : Cause) (s : State) : Access α :=
  match memRead s.pc s with
  | .ok raw => .error ⟨c, raw⟩
  | .error t => .error t

/-- The watchdog check at the start of a step (R126). -/
def watchdog (s : State) : Access Unit :=
  match s.cfg.maxSteps with
  | none => .ok ()
  | some n => if n ≤ s.steps then .error ⟨.stepLimitExceeded, s.steps⟩ else .ok ()

/-! ### Registers -/

/-- `pc <- pc + length` (R79): exact, not checked. -/
def advance (length : Nat) (s : State) : State := { s with pc := s.pc + length }

/-- `pc <- b` of a taken jump (R80): the target is not checked here (R102). -/
def jumpTo (target : Int) (s : State) : State := { s with pc := target }

/-- `out <- some a` (R96): the last write wins. -/
def capture (a : Int) (s : State) : State := { s with out := some a }

/-- `run <- Halted` (R110). -/
def enterHalted (s : State) : State := { s with run := .halted }

/-- `steps <- steps + 1`, last in a step that completes an instruction (R81). -/
def countStep (s : State) : State := { s with steps := s.steps + 1 }

/-- The end of an instruction: a completed one is counted (R81), a raised fault is taken in the state the
instruction started from (R70, R124). -/
def conclude (s : State) (r : Access State) : Host.Outcome State Fault Refusal :=
  match r with
  | .ok t => .next (countStep t)
  | .error t => .next (takeFault t s)

end Sys2Proof.Machine
end

