-- ==== Sys2Proof/Syntax.lean ====
section
/-! DEFINITION. The decoded instruction (spec/10_state.md rule R22; spec/30_encoding.md rules R50, R55,
R56): the closed opcode enumeration and one constructor of `Instr` per row of spec/opcode_table.json. -/

namespace Sys2Proof

/-- The closed opcode enumeration of spec/30_encoding.md rule R57. -/
inductive Opcode where
  | add | mul | input | output | jnz | jz | lt | eq | halt
  deriving DecidableEq, Repr

/-- A read parameter: its parameter word with the addressing mode its mode digit names (rules R54, R56).
A used mode digit from 2 to 9 is an illegal encoding, but it is one only "at the moment that parameter
would be resolved" (R59), after earlier parameters have been resolved and may have faulted; so it is kept
in the decoded instruction (notes/assumptions/9.md) and `WellFormed` refuses it. -/
inductive Operand where
  /-- Mode digit 0: the word is an address to dereference; written `[a]` in rule R63. -/
  | position (addr : Int)
  /-- Mode digit 1: the word is the value; written `#v` in rule R63. -/
  | immediate (v : Int)
  /-- Mode digit `d + 2`, that is 2 to 9: no addressing mode (R59). -/
  | unknownMode (d : Fin 8) (w : Int)
  deriving DecidableEq, Repr

/-- The decoded instruction: the operands in parameter order, and the destination word where the format
has a write parameter (it is used verbatim as an address, R56, R77). -/
inductive Instr where
  /-- ADD, opcode 1, format RRW (R90). -/
  | add (a b : Operand) (dest : Int)
  /-- MUL, opcode 2, format RRW (R91). -/
  | mul (a b : Operand) (dest : Int)
  /-- IN, opcode 3, format W (R95). -/
  | input (dest : Int)
  /-- OUT, opcode 4, format R (R96). -/
  | output (a : Operand)
  /-- JNZ, opcode 5, format RR (R100): condition, then target. -/
  | jnz (a b : Operand)
  /-- JZ, opcode 6, format RR (R101): condition, then target. -/
  | jz (a b : Operand)
  /-- LT, opcode 7, format RRW (R105). -/
  | lt (a b : Operand) (dest : Int)
  /-- EQ, opcode 8, format RRW (R106). -/
  | eq (a b : Operand) (dest : Int)
  /-- HALT, opcode 99, format N (R110). -/
  | halt
  deriving DecidableEq, Repr

/-- The opcode an instruction was decoded from. -/
def Instr.opcode : Instr → Opcode
  | .add _ _ _ => .add
  | .mul _ _ _ => .mul
  | .input _ => .input
  | .output _ => .output
  | .jnz _ _ => .jnz
  | .jz _ _ => .jz
  | .lt _ _ _ => .lt
  | .eq _ _ _ => .eq
  | .halt => .halt

/-- The read parameters of an instruction, in ascending parameter number (R55). -/
def Instr.reads : Instr → List Operand
  | .add a b _ => [a, b]
  | .mul a b _ => [a, b]
  | .input _ => []
  | .output a => [a]
  | .jnz a b => [a, b]
  | .jz a b => [a, b]
  | .lt a b _ => [a, b]
  | .eq a b _ => [a, b]
  | .halt => []

/-- The destination address of an instruction that has a write parameter (R55, R77). -/
def Instr.dest : Instr → Option Int
  | .add _ _ d => some d
  | .mul _ _ d => some d
  | .input d => some d
  | .output _ => none
  | .jnz _ _ => none
  | .jz _ _ => none
  | .lt _ _ d => some d
  | .eq _ _ d => some d
  | .halt => none

end Sys2Proof
end

