-- ==== Sys2Proof/Machine/Operands.lean ====
section
/-! DEFINITION. The addressing modes (spec/40_execution_cycle.md rules R76, R77) and the two shapes in which
the formats RRW and RR use them. A destination needs no function: `Dest(k)` is the parameter word itself
(R77), which `Instr` holds. -/

namespace Sys2Proof.Machine

/-- `Resolve(k)` (R76): position mode reads the addressed cell, immediate mode is the word itself, a mode
digit from 2 to 9 raises UnknownMode(raw). It changes no state. -/
def resolve (o : Operand) (s : State) : Access Int :=
  match o with
  | .position w => memRead w s
  | .immediate w => .ok w
  | .unknownMode _ _ => raiseWithWord .unknownMode s

/-- Parameters 1 and 2, each completely resolved before the next (R76). -/
def resolveTwo (a b : Operand) (s : State) : Access (Int × Int) := do
  let x ← resolve a s
  let y ← resolve b s
  return (x, y)

/-- An instruction of format RRW (R55, R72): resolve both operands, then make the single write to the
destination, then advance `pc` by 4. -/
def storeResult (f : Int → Int → Int) (a b : Operand) (dest : Int) (s : State) : Access State := do
  let (x, y) ← resolveTwo a b s
  let t ← memWrite dest (f x y) s
  return advance 4 t

/-- An instruction of format RR (R55, R80): both operands are resolved whether or not the branch is taken;
`pc` becomes the target or `pc + 3`, never both. -/
def jumpWhen (taken : Int → Bool) (a b : Operand) (s : State) : Access State := do
  let (x, y) ← resolveTwo a b s
  return if taken x then jumpTo y s else advance 3 s

end Sys2Proof.Machine
end

