-- ==== Sys2Proof/Machine/Arith.lean ====
section
/-! DEFINITION. ADD and MUL (spec/41_arithmetic.md). -/

namespace Sys2Proof.Machine

/-- ADD, R90: `memory[dest] = a + b`, the exact integer sum (R92). -/
def execAdd (a b : Operand) (dest : Int) (s : State) : Host.Outcome State Fault Refusal :=
  conclude s (storeResult (fun x y => x + y) a b dest s)

/-- MUL, R91: `memory[dest] = a * b`, the exact integer product (R92). -/
def execMul (a b : Operand) (dest : Int) (s : State) : Host.Outcome State Fault Refusal :=
  conclude s (storeResult (fun x y => x * y) a b dest s)

end Sys2Proof.Machine
end

