-- ==== Sys2Proof/Machine/Flags.lean ====
section
/-! DEFINITION. The machine has no flags, no condition codes and no status bits (spec/10_state.md rule R13):
LT and EQ write an ordinary integer to a memory cell and JNZ and JZ test an operand. What stands here is
that integer. -/

namespace Sys2Proof.Machine

/-- The result of a comparison: exactly 1 or 0 (spec/44_compare.md rules R105, R106). -/
def truthValue (p : Bool) : Int := if p then 1 else 0

/-- An operand tested by a jump is true if it is any non-zero value, negative values included
(spec/43_jumps.md rules R100, R101). -/
def nonZero (a : Int) : Bool := a != 0

end Sys2Proof.Machine
end

