-- ==== Sys2Proof/Machine/Compare.lean ====
section
/-! DEFINITION. LT and EQ (spec/44_compare.md). -/

namespace Sys2Proof.Machine

/-- LT, R105: `memory[dest] = 1 if a < b else 0`, signed and exact (R107). -/
def execLt (a b : Operand) (dest : Int) (s : State) : Host.Outcome State Fault Refusal :=
  conclude s (storeResult (fun x y => truthValue (x < y)) a b dest s)

/-- EQ, R106: `memory[dest] = 1 if a == b else 0` (R107). -/
def execEq (a b : Operand) (dest : Int) (s : State) : Host.Outcome State Fault Refusal :=
  conclude s (storeResult (fun x y => truthValue (x == y)) a b dest s)

end Sys2Proof.Machine
end

