-- ==== Sys2Proof/Machine/Halt.lean ====
section
/-! DEFINITION. HALT (spec/45_halt.md). -/

namespace Sys2Proof.Machine

/-- HALT, R110: `run <- Halted`; `pc` is not changed, the step is counted (R81). -/
def execHalt (s : State) : Host.Outcome State Fault Refusal :=
  conclude s (.ok (enterHalted s))

end Sys2Proof.Machine
end

