-- ==== Sys2Proof/Machine/Io.lean ====
section
/-! DEFINITION. IN and OUT (spec/42_io.md). -/

namespace Sys2Proof.Machine

/-- IN, R95: `memory[dest] = pendingInput`. Without an input it raises NoInput(raw), before the destination
is checked; the input register is read, not consumed (R16). -/
def execIn (dest : Int) (s : State) : Host.Outcome State Fault Refusal :=
  conclude s <|
    match s.inp with
    | none => raiseWithWord .noInput s
    | some v => do
      let t ← memWrite dest v s
      return advance 2 t

/-- OUT, R96: `capturedOutput = a`; memory is not written. -/
def execOut (a : Operand) (s : State) : Host.Outcome State Fault Refusal :=
  conclude s do
    let x ← resolve a s
    return advance 2 (capture x s)

end Sys2Proof.Machine
end

