-- ==== Sys2Proof/Machine/Jump.lean ====
section
/-! DEFINITION. JNZ and JZ (spec/43_jumps.md). -/

namespace Sys2Proof.Machine

/-- JNZ, R100: jump to `b` if `a != 0`, else fall through. -/
def execJnz (a b : Operand) (s : State) : Host.Outcome State Fault Refusal :=
  conclude s (jumpWhen nonZero a b s)

/-- JZ, R101: jump to `b` if `a == 0`, else fall through. -/
def execJz (a b : Operand) (s : State) : Host.Outcome State Fault Refusal :=
  conclude s (jumpWhen (fun x => !nonZero x) a b s)

end Sys2Proof.Machine
end

