-- ==== Sys2Proof/WellFormed.lean ====
section
/-! DEFINITION. Which decoded instructions are legal (spec/30_encoding.md rules R54, R59): every used mode
digit is 0 or 1. A parameter word may be any integer, a destination too (R56), so nothing else is checked. -/

namespace Sys2Proof

/-- A used mode digit is 0 or 1 (R59). -/
def Operand.legal : Operand → Bool
  | .position _ => true
  | .immediate _ => true
  | .unknownMode _ _ => false

/-- Every read parameter has a legal mode digit; a destination has no mode (R56, R60). -/
def Instr.wellFormed (i : Instr) : Bool :=
  i.reads.all Operand.legal

end Sys2Proof
end

