-- ==== Sys2Proof/Decode.lean ====
section
/-! DEFINITION. The decoder and the encoder (spec/30_encoding.md). Both work on a list of cells, the
instruction word first: `decode` reads the instruction that starts at the head of the list, `encode`
writes the canonical cells of rule R65. -/

namespace Sys2Proof

/-! ### Fields of the instruction word -/

/-- `digit_k(v)` of spec/00_scope.md section 6.1: decimal digit number `k` of a non-negative number. -/
def digit (k v : Nat) : Nat := v / 10 ^ k % 10

/-- The opcode map over the values of `raw mod 100` (R57): nine opcodes, every other value illegal. -/
def opcodeOf : Nat → Option Opcode
  | 1 => some .add
  | 2 => some .mul
  | 3 => some .input
  | 4 => some .output
  | 5 => some .jnz
  | 6 => some .jz
  | 7 => some .lt
  | 8 => some .eq
  | 99 => some .halt
  | _ => none

/-- The two low decimal digits of an opcode's instruction word (Table R53). -/
def Opcode.code : Opcode → Nat
  | .add => 1
  | .mul => 2
  | .input => 3
  | .output => 4
  | .jnz => 5
  | .jz => 6
  | .lt => 7
  | .eq => 8
  | .halt => 99

/-- The length in cells, determined solely by the opcode (Table R53). -/
def Opcode.length : Opcode → Nat
  | .add => 4
  | .mul => 4
  | .input => 2
  | .output => 2
  | .jnz => 3
  | .jz => 3
  | .lt => 4
  | .eq => 4
  | .halt => 1

/-- The number of cells an instruction occupies (R50, R53). -/
def Instr.length (i : Instr) : Nat := i.opcode.length

/-- The opcode of an instruction word (R52): `raw mod 100` of a non-negative word; a negative word has
none (R58). -/
def decodeOpcode (raw : Int) : Option Opcode :=
  if raw < 0 then none else opcodeOf (raw.toNat % 100)

/-- A parameter word under its mode digit, a number from 0 to 9 (R54, R56, R59). -/
def operandOf : Nat → Int → Operand
  | 0, w => .position w
  | 1, w => .immediate w
  | m + 2, w => .unknownMode (Fin.ofNat 8 m) w

/-! ### Decoding -/

/-- Why a list of cells holds no instruction at its head. -/
inductive DecodeError where
  /-- The instruction word is negative or its opcode is none of the nine (R58). -/
  | unknownOpcode (raw : Int)
  /-- The list ends before the cell at this offset from the instruction word, the first one missing (R73, R75). -/
  | missingCell (offset : Nat)
  deriving DecidableEq, Repr

/-- Format RRW (R55): parameters 1 and 2 under mode digits `m1` and `m2`, then the destination. -/
def decodeRRW (mk : Operand → Operand → Int → Instr) (raw : Nat) : List Int → Except DecodeError Instr
  | w1 :: w2 :: w3 :: _ => .ok (mk (operandOf (digit 2 raw) w1) (operandOf (digit 3 raw) w2) w3)
  | short => .error (.missingCell (short.length + 1))

/-- Format RR (R55): parameters 1 and 2 under mode digits `m1` and `m2`. -/
def decodeRR (mk : Operand → Operand → Instr) (raw : Nat) : List Int → Except DecodeError Instr
  | w1 :: w2 :: _ => .ok (mk (operandOf (digit 2 raw) w1) (operandOf (digit 3 raw) w2))
  | short => .error (.missingCell (short.length + 1))

/-- Format R (R55): parameter 1 under mode digit `m1`. -/
def decodeR (mk : Operand → Instr) (raw : Nat) : List Int → Except DecodeError Instr
  | w1 :: _ => .ok (mk (operandOf (digit 2 raw) w1))
  | short => .error (.missingCell (short.length + 1))

/-- Format W (R55): the destination only, no mode digit used (R60). -/
def decodeW (mk : Int → Instr) : List Int → Except DecodeError Instr
  | w1 :: _ => .ok (mk w1)
  | short => .error (.missingCell (short.length + 1))

/-- The parameter words after an instruction word with a known opcode, in the opcode's format (Table R55). -/
def decodeArgs (op : Opcode) (raw : Nat) (args : List Int) : Except DecodeError Instr :=
  match op with
  | .add => decodeRRW .add raw args
  | .mul => decodeRRW .mul raw args
  | .input => decodeW .input args
  | .output => decodeR .output raw args
  | .jnz => decodeRR .jnz raw args
  | .jz => decodeRR .jz raw args
  | .lt => decodeRRW .lt raw args
  | .eq => decodeRRW .eq raw args
  | .halt => .ok .halt

/-- The instruction that starts at the head of a list of cells, or why there is none. The opcode check
comes before any parameter word is looked for (R58, R74); cells after the instruction are not read. -/
def decode : List Int → Except DecodeError Instr
  | [] => .error (.missingCell 0)
  | raw :: args =>
    match decodeOpcode raw with
    | none => .error (.unknownOpcode raw)
    | some op => decodeArgs op raw.toNat args

/-- What the host's opcode-table question reads: the instruction whose word is the number `w`, its
parameter words zero. The machine's cells are integers and have no width in bits, so the number is the
instruction word itself and `nbits` cuts nothing (notes/assumptions/5.md). -/
def decodeTableWord (_nbits w : Nat) : Option Instr :=
  (decode [(w : Int), 0, 0, 0]).toOption

/-! ### Encoding -/

/-- The mode digit of a read parameter: 0 for `[a]`, 1 for `#v` (R65); an illegal digit is itself. -/
def Operand.modeDigit : Operand → Nat
  | .position _ => 0
  | .immediate _ => 1
  | .unknownMode d _ => d.val + 2

/-- The parameter word of a read parameter, used whole (R56). -/
def Operand.word : Operand → Int
  | .position a => a
  | .immediate v => v
  | .unknownMode _ w => w

/-- `raw = opcode + 100*m1 + 1000*m2` (R65): the destination's digit and every digit of an absent
parameter is 0. -/
def instructionWord (op : Opcode) (m1 m2 : Nat) : Int :=
  ((op.code + 100 * m1 + 1000 * m2 : Nat) : Int)

/-- The canonical cells of an instruction, in address order (R55, R65). -/
def encode : Instr → List Int
  | .add a b d => [instructionWord .add a.modeDigit b.modeDigit, a.word, b.word, d]
  | .mul a b d => [instructionWord .mul a.modeDigit b.modeDigit, a.word, b.word, d]
  | .input d => [instructionWord .input 0 0, d]
  | .output a => [instructionWord .output a.modeDigit 0, a.word]
  | .jnz a b => [instructionWord .jnz a.modeDigit b.modeDigit, a.word, b.word]
  | .jz a b => [instructionWord .jz a.modeDigit b.modeDigit, a.word, b.word]
  | .lt a b d => [instructionWord .lt a.modeDigit b.modeDigit, a.word, b.word, d]
  | .eq a b d => [instructionWord .eq a.modeDigit b.modeDigit, a.word, b.word, d]
  | .halt => [instructionWord .halt 0 0]

end Sys2Proof
end

