-- ==== Sys2Proof/Machine/Fetch.lean ====
section
/-! DEFINITION. Steps 0 to 4 of a step (spec/40_execution_cycle.md rule R72): the watchdog check, the fetch,
the decoding of the instruction word and the parameter fetch. -/

namespace Sys2Proof.Machine

/-- The cells from an address to the end of memory, none where the address is not valid: what fetch and
parameter fetch can read, with the ordinary reads of `M` (R45, R73, R75). -/
def cellsFrom (m : Memory) (a : Int) : List Int :=
  if a < 0 then [] else m.drop a.toNat

/-- What the machine raises where the cells at `pc` hold no instruction: UnknownOpcode(raw) (R58), or
OutOfBounds of the first cell that is not there (R73, R75). -/
def decodeTrap (pc : Int) : DecodeError → Trap
  | .unknownOpcode raw => ⟨.unknownOpcode, raw⟩
  | .missingCell k => ⟨.outOfBounds, pc + k⟩

/-- Steps 1 to 4 of rule R72: the instruction at `pc`, decoded afresh from `M` (R45). -/
def fetch (s : State) : Access Instr :=
  match decode (cellsFrom s.M s.pc) with
  | .ok i => .ok i
  | .error e => .error (decodeTrap s.pc e)

/-- Steps 0 to 4 of rule R72: the watchdog check comes before the fetch (R126). -/
def nextInstr (s : State) : Access Instr := do
  watchdog s
  fetch s

end Sys2Proof.Machine
end

