-- ==== Sys2Proof/Machine/Step.lean ====
section
/-! DEFINITION. One step (spec/40_execution_cycle.md rules R70 to R72): the execution of one instruction or
the taking of one fault, enabled only in `Running`. -/

namespace Sys2Proof.Machine

/-- One step. In `Halted` and `Faulted` there is none (R71). In `Running` it ends in a next state always:
an instruction that completed, or a fault that was taken (R124). -/
def step (s : State) : Host.Outcome State Fault Refusal :=
  match s.run with
  | .halted => .fault .noStepWhenHalted
  | .faulted => .fault .noStepWhenFaulted
  | .running =>
    match nextInstr s with
    | .error t => .next (takeFault t s)
    | .ok i => exec i s

/-- `s` with the instruction whose word is the number `w`, its parameter words zero, as the whole program,
loaded and launched (R140, R141): the machine fetches only from memory its launch filled, so that is what
lets the very next step run it. `inp`, `out` and the configuration stay (notes/assumptions/6.md). -/
def State.withFetchWord (s : State) (_nbits w : Nat) : State :=
  { s with
    P := [(w : Int), 0, 0, 0]
    M := [(w : Int), 0, 0, 0]
    pc := 0
    run := .running
    fcause := none
    finfo := none
    fpc := none
    steps := 0 }

end Sys2Proof.Machine
end

