-- ==== Sys2Proof/Machine/Asm.lean ====
section
/-! DEFINITION. The notation of spec/30_encoding.md rule R63 as data, how it is written, and the canonical
cells it assembles to (rule R65). It has no normative force on the machine (decision D15). -/

namespace Sys2Proof.Machine

/-- An integer of the notation: written out, or the name of a label, "wherever an integer is expected". -/
inductive AsmInt where
  | lit (v : Int)
  | label (name : String)
  deriving DecidableEq, Repr

/-- A read operand: `[a]` or `#v`. -/
inductive AsmRead where
  | cell (a : AsmInt)
  | imm (v : AsmInt)
  deriving DecidableEq, Repr

/-- One statement: `MNEMONIC op1, op2, op3` (read operands, then the destination if any), or `.cell v`. -/
inductive AsmStmt where
  | instr (op : Opcode) (reads : List AsmRead) (dest : Option AsmInt)
  | data (v : AsmInt)
  deriving DecidableEq, Repr

/-- A line: a statement, and the label before it if any. -/
structure AsmLine where
  label : Option String
  stmt : AsmStmt
  deriving DecidableEq, Repr

/-- How many read parameters an opcode's format has (Table R55). -/
def asmReads : Opcode → Nat
  | .add => 2
  | .mul => 2
  | .input => 0
  | .output => 1
  | .jnz => 2
  | .jz => 2
  | .lt => 2
  | .eq => 2
  | .halt => 0

/-- Does an opcode's format have a write parameter (Table R55)? -/
def asmWrites : Opcode → Bool
  | .add => true
  | .mul => true
  | .input => true
  | .output => false
  | .jnz => false
  | .jz => false
  | .lt => true
  | .eq => true
  | .halt => false

/-- The number of cells of a statement. -/
def AsmStmt.size : AsmStmt → Nat
  | .instr op _ _ => op.length
  | .data _ => 1

/-- The address of each label, the first line at address `a`. -/
def asmLabels : Nat → List AsmLine → List (String × Nat)
  | _, [] => []
  | a, l :: rest =>
    let more := asmLabels (a + l.stmt.size) rest
    match l.label with
    | some n => (n, a) :: more
    | none => more

/-- The value of an integer under a table of labels; none for a label that is not there. -/
def AsmInt.value (labels : List (String × Nat)) : AsmInt → Option Int
  | .lit v => some v
  | .label n => (labels.lookup n).map fun a => (a : Int)

/-- A read operand of the notation as the instruction's operand. -/
def AsmRead.operand (labels : List (String × Nat)) : AsmRead → Option Operand
  | .cell a => (a.value labels).map .position
  | .imm v => (v.value labels).map .immediate

/-- The instruction word of an opcode and its read operands (R65). -/
def asmWord (op : Opcode) (rs : List Operand) : Int :=
  instructionWord op ((rs[0]?).elim 0 Operand.modeDigit) ((rs[1]?).elim 0 Operand.modeDigit)

/-- The cells of one statement; none where the operands do not fit the format or a label is not there. -/
def AsmStmt.cells (labels : List (String × Nat)) : AsmStmt → Option (List Int)
  | .data v => do
    let x ← v.value labels
    return [x]
  | .instr op reads dest =>
    if reads.length = asmReads op ∧ dest.isSome = asmWrites op then do
      let rs ← reads.mapM (AsmRead.operand labels)
      let d ← dest.toList.mapM (AsmInt.value labels)
      return asmWord op rs :: (rs.map Operand.word ++ d)
    else none

/-- A legal read operand written in the notation; an illegal mode digit has no notation (R59, R63). -/
def asmRead : Operand → Option AsmRead
  | .position a => some (.cell (.lit a))
  | .immediate v => some (.imm (.lit v))
  | .unknownMode _ _ => none

/-- A legal instruction written in the notation. -/
def asmOf (i : Instr) : Option AsmStmt := do
  let rs ← i.reads.mapM asmRead
  return .instr i.opcode rs (i.dest.map .lit)

/-- The program a list of lines stands for; none where a line is ill-formed, a label is not there or two
lines have the same label (notes/assumptions/13.md). -/
def assemble (lines : List AsmLine) : Option (List Int) := do
  let labels := asmLabels 0 lines
  if (labels.map Prod.fst).Nodup then
    let cells ← lines.mapM (fun l => l.stmt.cells labels)
    return cells.flatten
  else none

/-! ### How it is written -/

/-- The mnemonics of rule R57. -/
def asmMnemonic : Opcode → String
  | .add => "ADD"
  | .mul => "MUL"
  | .input => "IN"
  | .output => "OUT"
  | .jnz => "JNZ"
  | .jz => "JZ"
  | .lt => "LT"
  | .eq => "EQ"
  | .halt => "HALT"

/-- An integer in base 10, a negative one with a leading minus sign (R62), or a label's name. -/
def AsmInt.text : AsmInt → String
  | .lit v => toString v
  | .label n => n

/-- A cell operand, read or written: `[a]`. -/
def asmCellText (a : AsmInt) : String := "[" ++ a.text ++ "]"

/-- A read operand: `[a]` or `#v`. -/
def AsmRead.text : AsmRead → String
  | .cell a => asmCellText a
  | .imm v => "#" ++ v.text

/-- A statement: the mnemonic and its operands, separated by commas, or `.cell v`. -/
def AsmStmt.text : AsmStmt → String
  | .data v => ".cell " ++ v.text
  | .instr op reads dest =>
    match reads.map AsmRead.text ++ dest.toList.map asmCellText with
    | [] => asmMnemonic op
    | ops => asmMnemonic op ++ " " ++ ", ".intercalate ops

/-- A line: the label `name:` if any, then the statement. -/
def AsmLine.text (l : AsmLine) : String :=
  match l.label with
  | some n => n ++ ": " ++ l.stmt.text
  | none => l.stmt.text

/-- The external text of a program: its cells in base 10 on one line, separated by commas (R62). Reading it
is the excluded loader's part (spec/00_scope.md rule R4 b). -/
def programText (p : Cells) : String := ",".intercalate (p.map toString)

end Sys2Proof.Machine
end

