-- ==== Sys2Proof/Machine/Launch.lean ====
section
/-! DEFINITION. The two host actions that change the machine: program load (spec/70_reset_and_hazards.md
rule R140) and launch, the only reset (rules R141 to R143). -/

namespace Sys2Proof.Machine

/-- The noun and the verb of a launch (R141). -/
structure Override where
  noun : Int
  verb : Int
  deriving DecidableEq, Repr

/-- The launch of R141 before the override: `M` a fresh copy of `P`, everything else at Table R24's value. -/
def freshRun (cfg : Config) (p : Cells) (iv : Option Int) : State where
  P := p
  M := p
  pc := 0
  inp := iv
  out := none
  run := .running
  fcause := none
  finfo := none
  fpc := none
  steps := 0
  cfg := cfg

/-- One bounds-checked write of a launch: it is made, or its fault is taken (R143). -/
def launchWrite (a : Int) (v : Int) (s : State) : State :=
  match memWrite a v s with
  | .ok t => t
  | .error t => takeFault t s

/-- The override writes, cell 1 first and then cell 2 (R143): a fault of the first leaves the second out,
a fault of the second leaves cell 1 written. -/
def applyOverride (ov : Override) (s : State) : State :=
  match memWrite 1 ov.noun s with
  | .ok t => launchWrite 2 ov.verb t
  | .error t => takeFault t s

/-- `Launch(ov, iv)` of a machine that holds the program `p` (R141). -/
def launched (cfg : Config) (p : Cells) (ov : Option Override) (iv : Option Int) : State :=
  match ov with
  | none => freshRun cfg p iv
  | some o => applyOverride o (freshRun cfg p iv)

/-- Is a program too long for the program store (R140)? -/
def tooLong (cfg : Config) (p : Cells) : Bool :=
  match cfg.maxProgramLen with
  | none => false
  | some m => m < p.length

/-- The transaction `load(p)` together with the first launch (R140, R153): between the two every other item
of state is unspecified and the host may read nothing (R24), so the model offers them as one action
(notes/assumptions/11.md). -/
def load (cfg : Config) (p : Cells) (ov : Option Override) (iv : Option Int) :
    Host.Outcome State Fault Refusal :=
  if tooLong cfg p then .refused .programTooLong else .next (launched cfg p ov iv)

/-- The transaction `launch(ov, iv)` of a machine whose last run has ended (R141, R153): the old run is
discarded, only `P` and the configuration survive (R25). -/
def launch (ov : Option Override) (iv : Option Int) (s : State) : Host.Outcome State Fault Refusal :=
  match s.run with
  | .running => .refused .launchWhileRunning
  | .halted => .next (launched s.cfg s.P ov iv)
  | .faulted => .next (launched s.cfg s.P ov iv)

end Sys2Proof.Machine
end

