-- ==== Sys2Proof/Machine/Loop.lean ====
section
/-! DEFINITION. The execution loop (spec/40_execution_cycle.md rule R82). It may never end, so it runs under
fuel, and running out of fuel is reported as not finished (spec/70_reset_and_hazards.md rule R163). -/

namespace Sys2Proof.Machine

/-- How far a run has come, with the state it has come to. -/
inductive RunEnd where
  | halted (s : State)
  | faulted (s : State)
  | notFinished (s : State)
  deriving DecidableEq, Repr

/-- The state of a run as its run-state register says (R14). -/
def runEnd (s : State) : RunEnd :=
  match s.run with
  | .halted => .halted s
  | .faulted => .faulted s
  | .running => .notFinished s

/-- The execution loop: steps while one is enabled, at most `fuel` of them (R82, R163). -/
def runLoop : Nat → State → RunEnd
  | 0, s => runEnd s
  | fuel + 1, s =>
    match step s with
    | .next t => runLoop fuel t
    | .fault _ => runEnd s
    | .refused _ => runEnd s

end Sys2Proof.Machine
end

