-- ==== Sys2Proof/Machine/Results.lean ====
section
/-! DEFINITION. What the host can read (spec/70_reset_and_hazards.md rules R147, R148, R153), the numbers of
the causes and control registers (spec/60_exceptions.md Table R121, spec/10_state.md rules R14 to R18), and
the two calling conventions (rules R144, R145). Reading changes nothing. -/

namespace Sys2Proof.Machine

/-! ### Numbers -/

/-- The cause codes of Table R121. -/
def Cause.code : Cause → Nat
  | .unknownOpcode => 1
  | .outOfBounds => 2
  | .stepLimitExceeded => 3
  | .unknownMode => 4
  | .noInput => 5

/-- The control and status registers of rules R14 to R18. No instruction reaches one (R111). -/
inductive CtrlReg where
  | run | fcause | finfo | fpc | inp | out | steps
  deriving DecidableEq, Repr

/-- The control register numbers of rules R14 to R18; they carry no meaning beyond identity (decision D12). -/
def CtrlReg.number : CtrlReg → Nat
  | .run => 0
  | .fcause => 1
  | .finfo => 2
  | .fpc => 3
  | .inp => 4
  | .out => 5
  | .steps => 6

/-! ### The transactions of rule R153 that read -/

/-- `status`. -/
def status (s : State) : RunState := s.run

/-- `result_mem0`: `M[0]`, valid only in `Halted` (R147 a). -/
def resultMem0 (s : State) : Option Int :=
  match s.run with
  | .halted => cellAt s.M 0
  | .running => none
  | .faulted => none

/-- The I/O result of a halted run: a value, or the distinct result NoOutput where no OUT was executed
(R147 b). -/
inductive IoResult where
  | value (v : Int)
  | noOutput
  deriving DecidableEq, Repr

/-- `result_out`: `out`, valid only in `Halted` (R147 b). -/
def resultOut (s : State) : Option IoResult :=
  match s.run, s.out with
  | .halted, some v => some (.value v)
  | .halted, none => some .noOutput
  | .running, _ => none
  | .faulted, _ => none

/-- `final_mem`: the whole of `M`, valid only in `Halted` (R147 c). -/
def finalMem (s : State) : Option Memory :=
  match s.run with
  | .halted => some s.M
  | .running => none
  | .faulted => none

/-- `pc` and `steps` of a halted run, for diagnosis only (R147 d). -/
def diagnosis (s : State) : Option (Int × Nat) :=
  match s.run with
  | .halted => some (s.pc, s.steps)
  | .running => none
  | .faulted => none

/-- The fault record as the host gets it. -/
structure FaultRecord where
  cause : Cause
  info : Int
  pc : Int
  deriving DecidableEq, Repr

/-- `fault`: the fault record, valid only in `Faulted`, and the only result there (R148). -/
def faultRecord (s : State) : Option FaultRecord :=
  match s.run, s.fcause, s.finfo, s.fpc with
  | .faulted, some c, some i, some p => some ⟨c, i, p⟩
  | _, _, _, _ => none

/-! ### The calling conventions -/

/-- What a caller gets from a run entry point (R144, R145, R148, R149). -/
inductive CallResult where
  | value (v : Int)
  /-- The run halted and executed no OUT (R147 b). -/
  | noOutput
  /-- The run faulted: no value, only the record (R148). -/
  | fault (r : FaultRecord)
  /-- The run has neither halted nor faulted within the fuel (R149, R163): no result. -/
  | notFinished
  /-- The program store does not accept the program (R140). -/
  | loadRefused
  deriving DecidableEq, Repr

/-- The result of a run that started in `s`, read in `Halted` by `read`. -/
def callResult (fuel : Nat) (read : State → CallResult) (s : State) : CallResult :=
  match runLoop fuel s with
  | .halted t => read t
  | .faulted t =>
    match faultRecord t with
    | some r => .fault r
    | none => .notFinished
  | .notFinished _ => .notFinished

/-- The arithmetic result `M[0]` of a halted state (R144). -/
def readMem0 (s : State) : CallResult :=
  match resultMem0 s with
  | some v => .value v
  | none => .notFinished

/-- The I/O result of a halted state (R145). -/
def readOut (s : State) : CallResult :=
  match resultOut s with
  | some (.value v) => .value v
  | some .noOutput => .noOutput
  | none => .notFinished

/-- The arithmetic run `run(program, noun, verb)` (R144); `ov = none` is the run without an override. -/
def arithmeticRun (fuel : Nat) (cfg : Config) (p : Cells) (ov : Option Override) : CallResult :=
  match load cfg p ov none with
  | .next s => callResult fuel readMem0 s
  | .fault _ => .loadRefused
  | .refused _ => .loadRefused

/-- The I/O run `run(program, input)` (R145). -/
def ioRun (fuel : Nat) (cfg : Config) (p : Cells) (v : Int) : CallResult :=
  match load cfg p none (some v) with
  | .next s => callResult fuel readOut s
  | .fault _ => .loadRefused
  | .refused _ => .loadRefused

end Sys2Proof.Machine
end

