-- ==== Sys2Proof/Machine/Search.lean ====
section
/-! DEFINITION. The search, a host procedure around the core (spec/70_reset_and_hazards.md rule R152): it
adds no state and no behaviour to the machine. -/

namespace Sys2Proof.Machine

/-- What the search returns. -/
inductive SearchResult where
  /-- The first matching pair, encoded as `noun * 100 + verb`. -/
  | found (encoded : Nat)
  /-- No pair matches; distinct from zero (R128, R152). -/
  | notFound
  /-- The fault of the first faulting run (decision D16). -/
  | fault (r : FaultRecord)
  /-- A run did not end within the fuel, so the search has no result (U22). -/
  | notFinished
  /-- The program store does not accept the program (R140). -/
  | loadRefused
  deriving DecidableEq, Repr

/-- The pairs `(noun, verb)` over `0..99`, in row-major order: outer loop noun, inner loop verb. -/
def searchPairs : List (Nat × Nat) :=
  (List.range 100).flatMap fun noun => (List.range 100).map fun verb => (noun, verb)

/-- The search over a list of pairs: one fresh arithmetic run for each, up to the first match or fault. -/
def searchOver (fuel : Nat) (cfg : Config) (p : Cells) (target : Int) : List (Nat × Nat) → SearchResult
  | [] => .notFound
  | (noun, verb) :: rest =>
    match arithmeticRun fuel cfg p (some ⟨noun, verb⟩) with
    | .value v => if v = target then .found (noun * 100 + verb) else searchOver fuel cfg p target rest
    | .fault r => .fault r
    | .noOutput => .notFinished
    | .notFinished => .notFinished
    | .loadRefused => .loadRefused

/-- `findInputs(program, target)` (R152). -/
def findInputs (fuel : Nat) (cfg : Config) (p : Cells) (target : Int) : SearchResult :=
  searchOver fuel cfg p target searchPairs

end Sys2Proof.Machine
end

