-- ==== Sys2Proof/Safety.lean ====
section
/-! DEFINITION. The terms in which statements about the machine are written: what an operand's value is,
when a step may execute an instruction, which states a run can be in, the machine's invariant, and the
spec's own consolidated block of one step. -/

namespace Sys2Proof.Machine

/-! ### Terms -/

/-- An address is valid (R32). -/
abbrev Valid (s : State) (a : Int) : Prop := 0 ≤ a ∧ a < s.M.length

/-- The watchdog lets one more instruction complete (R126). -/
def BelowLimit (s : State) : Prop := ∀ n, s.cfg.maxSteps = some n → s.steps < n

/-- The machine is about to execute the instruction whose word is `raw`: it runs, the watchdog lets it, and
the fetch gives `raw` (R71, R72 steps 0 and 1). -/
def Ready (s : State) (raw : Int) : Prop := s.run = .running ∧ BelowLimit s ∧ cellAt s.M s.pc = some raw

/-- The state in `Faulted` with this cause and information value, nothing else changed: `fault(c, i)` of
spec/40_execution_cycle.md section 4, written out. -/
def faultEntry (s : State) (c : Cause) (i : Int) : State :=
  { s with run := .faulted, fcause := some c, finfo := some i, fpc := some s.pc }

/-- The operand of a read parameter is this value (R56): the addressed cell in position mode, the word in
immediate mode; an unknown mode has none. -/
def HasValue (s : State) (o : Operand) (v : Int) : Prop :=
  match o with
  | .position a => cellAt s.M a = some v
  | .immediate w => v = w
  | .unknownMode _ _ => False

/-- Resolving a read parameter raises this fault (R59, R76), the instruction word being `raw`. -/
def OperandFault (s : State) (raw : Int) (o : Operand) (t : Trap) : Prop :=
  match o with
  | .position a => ¬ Valid s a ∧ t = ⟨.outOfBounds, a⟩
  | .immediate _ => False
  | .unknownMode _ _ => t = ⟨.unknownMode, raw⟩

/-- The instruction stores this value at its destination: the sum, the product, the pending input or the
result of the comparison (R90, R91, R95, R105, R106); OUT, JNZ, JZ and HALT store none. -/
def StoredValue (s : State) (i : Instr) (w : Int) : Prop :=
  match i with
  | .add a b _ => ∃ x y, HasValue s a x ∧ HasValue s b y ∧ w = x + y
  | .mul a b _ => ∃ x y, HasValue s a x ∧ HasValue s b y ∧ w = x * y
  | .input _ => s.inp = some w
  | .output _ => False
  | .jnz _ _ => False
  | .jz _ _ => False
  | .lt a b _ => ∃ x y, HasValue s a x ∧ HasValue s b y ∧ w = if x < y then 1 else 0
  | .eq a b _ => ∃ x y, HasValue s a x ∧ HasValue s b y ∧ w = if x = y then 1 else 0
  | .halt => False

/-- A raw word names one of the nine instructions (R57, R58). -/
def HasOpcode (raw : Int) : Prop :=
  0 ≤ raw ∧ (raw % 100 = 1 ∨ raw % 100 = 2 ∨ raw % 100 = 3 ∨ raw % 100 = 4 ∨ raw % 100 = 5 ∨ raw % 100 = 6 ∨
    raw % 100 = 7 ∨ raw % 100 = 8 ∨ raw % 100 = 99)

/-- A used mode digit of a raw word is 2 to 9 (R54, R59): `m1` of OUT, `m1` and `m2` of the formats RR and
RRW. -/
def HasUnknownMode (raw : Int) : Prop :=
  (raw / 100 % 10 ≥ 2 ∧ (raw % 100 = 1 ∨ raw % 100 = 2 ∨ raw % 100 = 4 ∨ raw % 100 = 5 ∨ raw % 100 = 6 ∨
    raw % 100 = 7 ∨ raw % 100 = 8)) ∨
  (raw / 1000 % 10 ≥ 2 ∧ (raw % 100 = 1 ∨ raw % 100 = 2 ∨ raw % 100 = 5 ∨ raw % 100 = 6 ∨ raw % 100 = 7 ∨
    raw % 100 = 8))

/-- A word is the canonical word of the instruction it decodes to (R65): the digits the decoder ignores
(R60) are 0. -/
def IgnoredDigitsZero (op : Opcode) (raw : Int) : Prop :=
  match op with
  | .add => raw < 10000
  | .mul => raw < 10000
  | .input => raw < 100
  | .output => raw < 1000
  | .jnz => raw < 10000
  | .jz => raw < 10000
  | .lt => raw < 10000
  | .eq => raw < 10000
  | .halt => raw < 100

/-! ### Runs -/

/-- `t` can be reached from `s` by steps. -/
inductive Reaches : State → State → Prop where
  | refl (s : State) : Reaches s s
  | step {s t u : State} : Reaches s t → Machine.step t = .next u → Reaches s u

/-- The fault record says that no fault has been taken (R15). -/
def NoRecord (s : State) : Prop := s.fcause = none ∧ s.finfo = none ∧ s.fpc = none

/-- The fault record says which fault has been taken, at the `pc` that stands (R15, R124). -/
def HasRecord (s : State) : Prop := s.fcause.isSome ∧ s.finfo.isSome ∧ s.fpc = some s.pc

/-- What the run-state register means for the rest of the state (R14, R15, R110, R124). -/
def RunStateInv (s : State) : Prop :=
  match s.run with
  | .running => NoRecord s
  | .halted => NoRecord s ∧ 0 < s.steps ∧ ∃ raw, cellAt s.M s.pc = some raw ∧ 0 ≤ raw ∧ raw % 100 = 99
  | .faulted => HasRecord s

/-- The machine's invariant: memory keeps its extent (R31), no more instructions than the limit have
completed (R126), and the run-state register tells the truth. -/
def State.Inv (s : State) : Prop :=
  s.M.wf s.P.length ∧ (∀ n, s.cfg.maxSteps = some n → s.steps ≤ n) ∧ RunStateInv s

/-- A run has ended as the spec wants it to: `Halted` is the only final end (R71). -/
def Final (s : State) : Prop := s.run = .halted

/-! ### The consolidated block of spec/40_execution_cycle.md section 4

Transcribed from the block, not from the machine above: it works on the instruction word's number and on
whole-integer division, knows no `Instr`, and writes every effect out. `k` is the rest of the step. -/

/-- `MemRead` of the block. -/
def blockRead (s : State) (a : Int) (k : Int → State) : State :=
  if a < 0 ∨ a ≥ s.M.length then faultEntry s .outOfBounds a else k (s.M.getD a.toNat 0)

/-- `MemWrite(a, v)` of the block, then the assignment to `pc` and the count. -/
def blockWrite (s : State) (a : Int) (v : Int) (pc : Int) : State :=
  if a < 0 ∨ a ≥ s.M.length then faultEntry s .outOfBounds a
  else { s with M := s.M.set a.toNat v, pc := pc, steps := s.steps + 1 }

/-- `Resolve(w, m)` of the block. -/
def blockResolve (s : State) (raw w m : Int) (k : Int → State) : State :=
  if m = 0 then blockRead s w k else if m = 1 then k w else faultEntry s .unknownMode raw

/-- The case of opcodes 1, 2, 7 and 8. -/
def blockRRW (s : State) (raw : Int) : State :=
  blockRead s (s.pc + 1) fun w1 => blockRead s (s.pc + 2) fun w2 => blockRead s (s.pc + 3) fun w3 =>
  blockResolve s raw w1 (raw / 100 % 10) fun a => blockResolve s raw w2 (raw / 1000 % 10) fun b =>
    let v :=
      if raw % 100 = 1 then a + b
      else if raw % 100 = 2 then a * b
      else if raw % 100 = 7 then if a < b then 1 else 0
      else if a = b then 1 else 0
    blockWrite s w3 v (s.pc + 4)

/-- The case of opcodes 5 and 6. -/
def blockRR (s : State) (raw : Int) : State :=
  blockRead s (s.pc + 1) fun w1 => blockRead s (s.pc + 2) fun w2 =>
  blockResolve s raw w1 (raw / 100 % 10) fun a => blockResolve s raw w2 (raw / 1000 % 10) fun b =>
    let target := if raw % 100 = 5 then (if a ≠ 0 then b else s.pc + 3) else if a = 0 then b else s.pc + 3
    { s with pc := target, steps := s.steps + 1 }

/-- The case of opcode 3. -/
def blockIn (s : State) (raw : Int) : State :=
  blockRead s (s.pc + 1) fun w1 =>
    match s.inp with
    | none => faultEntry s .noInput raw
    | some v => blockWrite s w1 v (s.pc + 2)

/-- The case of opcode 4. -/
def blockOut (s : State) (raw : Int) : State :=
  blockRead s (s.pc + 1) fun w1 => blockResolve s raw w1 (raw / 100 % 10) fun a =>
    { s with out := some a, pc := s.pc + 2, steps := s.steps + 1 }

/-- The case distinction of the block on the opcode of an instruction word. -/
def blockWord (s : State) (raw : Int) : State :=
  if raw < 0 then faultEntry s .unknownOpcode raw
  else
    let op := raw % 100
    if op = 1 ∨ op = 2 ∨ op = 7 ∨ op = 8 then blockRRW s raw
    else if op = 3 then blockIn s raw
    else if op = 4 then blockOut s raw
    else if op = 5 ∨ op = 6 then blockRR s raw
    else if op = 99 then { s with run := .halted, steps := s.steps + 1 }
    else faultEntry s .unknownOpcode raw

/-- The whole step as one function, in `Running`. -/
def blockStep (s : State) : State :=
  match s.cfg.maxSteps with
  | some n =>
    if s.steps ≥ n then faultEntry s .stepLimitExceeded s.steps else blockRead s s.pc fun raw => blockWord s raw
  | none => blockRead s s.pc fun raw => blockWord s raw

end Sys2Proof.Machine
end

