-- ==== Sys2Proof/Certificates/Slice0/Obligations.lean ====
section
/-! DEFINITION. The statements about the machine, for the provers. Each docstring names the rule of spec/ it
formalises; the terms are those of Sys2Proof/Safety.lean. -/

open Sys2Proof Sys2Proof.Machine

/-! ### Encoding -/

/-- Nine words written out from Table R51 and Table R55, one for each instruction, decode to the
instruction they stand for. -/
def Obligations.EncodingTableWordsDecode : Prop :=
  decode [1, 9, 10, 3] = .ok (.add (.position 9) (.position 10) 3) ∧
  decode [1002, 4, 3, 4] = .ok (.mul (.position 4) (.immediate 3) 4) ∧
  decode [3, 25] = .ok (.input 25) ∧
  decode [104, -17] = .ok (.output (.immediate (-17))) ∧
  decode [1005, 16, 2] = .ok (.jnz (.position 16) (.immediate 2)) ∧
  decode [1106, 0, 36] = .ok (.jz (.immediate 0) (.immediate 36)) ∧
  decode [107, 8, 21, 20] = .ok (.lt (.immediate 8) (.position 21) 20) ∧
  decode [1008, 21, 8, 20] = .ok (.eq (.position 21) (.immediate 8) 20) ∧
  decode [99] = .ok .halt

/-- R65: decode(encode(i)) = i for every instruction `i`, whatever cells follow it in memory. It holds for
instructions with an illegal mode digit too, so no form is left out: that such an instruction is decoded, and
has cells of its own beside R65's canonical ones, is the model's choice (notes/assumptions/9.md). -/
def Obligations.EncodeThenDecodeGivesTheInstruction : Prop :=
  ∀ (i : Instr) (rest : List Int), decode (encode i ++ rest) = .ok i

/-- R65: encoding what was decoded gives back the cells that were read exactly when every digit the
decoder ignores (R60) is 0. For words whose used mode digits are 0 and 1 these are R65's canonical words;
that a word with a used mode digit of 2 to 9 decodes and is re-encoded too is the model's choice
(notes/assumptions/9.md), R65 calling no such word canonical. -/
def Obligations.ReencodingKeepsExactlyTheWordsWithNoIgnoredDigit : Prop :=
  ∀ (raw : Int) (args : List Int) (i : Instr), decode (raw :: args) = .ok i →
    (encode i = raw :: args.take (i.length - 1) ↔ IgnoredDigitsZero i.opcode raw)

/-- R60: two non-negative words with the same opcode and the same used mode digits decode alike, whatever
their other digits are. -/
def Obligations.IgnoredDigitsDoNotChangeTheDecoding : Prop :=
  ∀ (raw raw' : Int) (args : List Int), 0 ≤ raw → 0 ≤ raw' → raw % 100 = raw' % 100 →
    (raw % 100 ≠ 3 → raw % 100 ≠ 99 → raw / 100 % 10 = raw' / 100 % 10) →
    (raw % 100 ≠ 3 → raw % 100 ≠ 99 → raw % 100 ≠ 4 → raw / 1000 % 10 = raw' / 1000 % 10) →
    HasOpcode raw →
    decode (raw :: args) = decode (raw' :: args)

/-- R52, R57: the opcode of a non-negative word is `raw mod 100`, and the nine codes are those of the map;
every other word has no opcode. -/
def Obligations.OpcodeMapOverAllWords : Prop :=
  (∀ (raw : Int) (op : Opcode), decodeOpcode raw = some op ↔ 0 ≤ raw ∧ raw % 100 = op.code) ∧
  (∀ raw : Int, decodeOpcode raw = none ↔ ¬HasOpcode raw)

/-- R53, R74: the instruction at the head of a list of cells is a function of as many cells as its length,
which the opcode of the first alone determines. -/
def Obligations.DecodingReadsExactlyTheInstructionsCells : Prop :=
  ∀ (raw : Int) (args rest : List Int) (i : Instr), decode (raw :: args) = .ok i →
    decodeOpcode raw = some i.opcode ∧ i.length ≤ args.length + 1 ∧
    decode ((raw :: args).take i.length ++ rest) = .ok i

/-- R63, R65: a legal instruction written in the notation assembles to its canonical cells; an instruction
with an illegal mode digit cannot be written. -/
def Obligations.NotationAssemblesToTheCanonicalCells : Prop :=
  ∀ (i : Instr) (labels : List (String × Nat)),
    (i.wellFormed = true → ∃ st, asmOf i = some st ∧ st.cells labels = some (encode i)) ∧
    (i.wellFormed = false → asmOf i = none)

/-! ### Fetching -/

/-- R70, R72, R78: where the cells at `pc` decode to an instruction, a step in `Running` below the limit is
that instruction's execution, with nothing around it. -/
def Obligations.StepRunsTheDecodedInstruction : Prop :=
  ∀ (s : State) (i : Instr), s.run = .running → BelowLimit s → Valid s s.pc →
    decode (s.M.drop s.pc.toNat) = .ok i → step s = exec i s

/-- R73: the fetch reads the cell at `pc` with the ordinary bounds-checked read, whose word then decides the
step; from an address that is not valid it raises OutOfBounds(pc). -/
def Obligations.FetchReadsTheCellAtPcOrFaults : Prop :=
  ∀ s : State, s.run = .running → BelowLimit s →
    (∀ raw, cellAt s.M s.pc = some raw → step s = .next (blockWord s raw)) ∧
    (¬Valid s s.pc → step s = .next (faultEntry s .outOfBounds s.pc))

/-- R58: a word that is negative or whose opcode is none of the nine raises UnknownOpcode(raw), whatever
follows it in memory; no other word is illegal by its opcode. -/
def Obligations.IllegalWordRaisesUnknownOpcode : Prop :=
  ∀ (s : State) (raw : Int), Ready s raw →
    (¬HasOpcode raw → step s = .next (faultEntry s .unknownOpcode raw)) ∧
    (HasOpcode raw → ∀ v, step s ≠ .next (faultEntry s .unknownOpcode v))

/-- R75: the parameter words are read in ascending order before any is interpreted, so the first one that is
not there faults, whatever the mode digits and the other words are; HALT has none and completes in the last
cell. -/
def Obligations.InstructionThatDoesNotFitFaults : Prop :=
  ∀ (s : State) (raw : Int) (op : Opcode), Ready s raw → decodeOpcode raw = some op →
    (∀ k : Nat, 1 ≤ k → k < op.length → Valid s (s.pc + k - 1) → ¬Valid s (s.pc + k) →
      step s = .next (faultEntry s .outOfBounds (s.pc + k))) ∧
    (op = .halt → step s = .next { s with run := .halted, steps := s.steps + 1 })

/-- R59: a used mode digit of 2 to 9 raises UnknownMode(raw) when its parameter would be resolved: after all
parameter words have been fetched, and for parameter 2 after parameter 1 has been resolved. -/
def Obligations.UsedModeDigitAboveOneRaisesUnknownMode : Prop :=
  ∀ (s : State) (raw : Int) (op : Opcode), Ready s raw → decodeOpcode raw = some op →
    (∀ k : Nat, k < op.length → Valid s (s.pc + k)) → op ≠ .input → op ≠ .halt →
    (raw / 100 % 10 ≥ 2 → step s = .next (faultEntry s .unknownMode raw)) ∧
    (op ≠ .output → raw / 1000 % 10 ≥ 2 → raw / 100 % 10 < 2 →
      (raw / 100 % 10 = 0 → ∃ w, cellAt s.M (s.pc + 1) = some w ∧ Valid s w) →
      step s = .next (faultEntry s .unknownMode raw))

/-! ### What each instruction does -/

/-- R90, R91, R92: ADD and MUL store the exact sum and product at the destination and advance by 4. -/
def Obligations.ArithmeticStoresTheExactResult : Prop :=
  ∀ (a b : Operand) (d : Int) (s : State) (x y : Int), HasValue s a x → HasValue s b y → Valid s d →
    exec (.add a b d) s = .next { s with M := s.M.set d.toNat (x + y), pc := s.pc + 4, steps := s.steps + 1 } ∧
    exec (.mul a b d) s = .next { s with M := s.M.set d.toNat (x * y), pc := s.pc + 4, steps := s.steps + 1 }

/-- R105, R106: LT and EQ store 1 or 0 at the destination and advance by 4; the comparison is signed. -/
def Obligations.ComparisonStoresOneOrZero : Prop :=
  ∀ (a b : Operand) (d : Int) (s : State) (x y : Int), HasValue s a x → HasValue s b y → Valid s d →
    exec (.lt a b d) s =
      .next { s with M := s.M.set d.toNat (if x < y then 1 else 0), pc := s.pc + 4, steps := s.steps + 1 } ∧
    exec (.eq a b d) s =
      .next { s with M := s.M.set d.toNat (if x = y then 1 else 0), pc := s.pc + 4, steps := s.steps + 1 }

/-- R95: IN stores the pending input at the destination, does not consume it, and advances by 2. -/
def Obligations.InStoresThePendingInput : Prop :=
  ∀ (d : Int) (s : State) (v : Int), s.inp = some v → Valid s d →
    exec (.input d) s = .next { s with M := s.M.set d.toNat v, pc := s.pc + 2, steps := s.steps + 1 }

/-- R96: OUT writes its operand to `out`, whatever stood there, writes no memory, and advances by 2. -/
def Obligations.OutCapturesItsOperand : Prop :=
  ∀ (a : Operand) (s : State) (x : Int), HasValue s a x →
    exec (.output a) s = .next { s with out := some x, pc := s.pc + 2, steps := s.steps + 1 }

/-- R80: JNZ and JZ end with exactly one of two assignments to `pc`, and with the same operands exactly one
of the two is taken. -/
def Obligations.JumpAssignsPcExactlyOnce : Prop :=
  ∀ (a b : Operand) (s : State) (x y : Int), HasValue s a x → HasValue s b y →
    exec (.jnz a b) s = .next { s with pc := if x ≠ 0 then y else s.pc + 3, steps := s.steps + 1 } ∧
    exec (.jz a b) s = .next { s with pc := if x = 0 then y else s.pc + 3, steps := s.steps + 1 }

/-- R110: HALT enters `Halted` and changes nothing else but the count; every non-negative word ending in the
digits 99 is HALT, in the last cell of memory too, and no negative word is. -/
def Obligations.HaltEndsTheRun : Prop :=
  (∀ s : State, exec .halt s = .next { s with run := .halted, steps := s.steps + 1 }) ∧
  (∀ (s : State) (raw : Int), Ready s raw → 0 ≤ raw → raw % 100 = 99 →
    step s = .next { s with run := .halted, steps := s.steps + 1 }) ∧
  (∀ (s : State) (raw : Int), Ready s raw → raw < 0 → step s = .next (faultEntry s .unknownOpcode raw))

/-- R79: a non-jump instruction that completes advances `pc` by its length, exactly and unchecked; HALT
leaves it. -/
def Obligations.NonJumpAdvancesByItsLength : Prop :=
  ∀ (i : Instr) (s t : State), i.opcode ≠ .jnz → i.opcode ≠ .jz → exec i s = .next t →
    t.steps = s.steps + 1 → t.pc = if i = .halt then s.pc else s.pc + i.length

/-- R46: a destination that is also a source sees the old value as the source, and a destination inside the
executing instruction changes neither its operands nor the length added to `pc`. -/
def Obligations.ReadsPrecedeTheWriteOfAdd : Prop :=
  (∀ (s : State) (d v : Int), cellAt s.M d = some v →
    ∃ t, exec (.add (.position d) (.position d) d) s = .next t ∧ cellAt t.M d = some (v + v) ∧ t.pc = s.pc + 4) ∧
  (∀ (s : State) (raw w1 w2 w3 x y : Int), Ready s raw → 0 ≤ raw → raw % 100 = 1 →
    cellAt s.M (s.pc + 1) = some w1 → cellAt s.M (s.pc + 2) = some w2 → cellAt s.M (s.pc + 3) = some w3 →
    HasValue s (operandOf (digit 2 raw.toNat) w1) x → HasValue s (operandOf (digit 3 raw.toNat) w2) y →
    s.pc ≤ w3 → w3 ≤ s.pc + 3 →
    ∃ t, step s = .next t ∧ cellAt t.M w3 = some (x + y) ∧ t.pc = s.pc + 4)

/-- R45: an instruction with a destination (ADD, MUL, IN, LT, EQ) stores its word there, and that word is what
every later step with `pc` at the cell decodes, as long as the cell has not been written again: the very
next step where `pc` comes to the cell at once (`u = t`), and any later one, however `pc` got there. -/
def Obligations.StoreIsSeenByTheNextFetch : Prop :=
  ∀ (i : Instr) (s : State) (d w : Int), i.dest = some d → StoredValue s i w → Valid s d →
    ∃ t, exec i s = .next t ∧ t.run = s.run ∧ t.pc = s.pc + i.length ∧ t.steps = s.steps + 1 ∧
      ∀ u : State, u.run = .running → BelowLimit u → u.pc = d → cellAt u.M d = cellAt t.M d →
        step u = .next (blockWord u w)

/-- R92: the operands of ADD and of MUL commute, up to which of two simultaneous faults is reported. -/
def Obligations.ArithmeticOperandsCommute : Prop :=
  ∀ (a b : Operand) (d : Int) (s : State),
    (exec (.add a b d) s = exec (.add b a d) s ∧ exec (.mul a b d) s = exec (.mul b a d) s) ∨
    ((∀ x, ¬HasValue s a x) ∧ (∀ y, ¬HasValue s b y) ∧
      (∃ c v, exec (.add a b d) s = .next (faultEntry s c v) ∧ exec (.mul a b d) s = .next (faultEntry s c v)) ∧
      (∃ c v, exec (.add b a d) s = .next (faultEntry s c v) ∧ exec (.mul b a d) s = .next (faultEntry s c v)))

/-- R107: of LT a,b and EQ a,b and LT b,a exactly one stores 1; the two others store 0. -/
def Obligations.ExactlyOneComparisonStoresOne : Prop :=
  ∀ (a b : Operand) (d : Int) (s : State) (x y : Int), HasValue s a x → HasValue s b y → Valid s d →
    ∃ t1 t2 t3 r1 r2 r3, exec (.lt a b d) s = .next t1 ∧ exec (.eq a b d) s = .next t2 ∧
      exec (.lt b a d) s = .next t3 ∧
      cellAt t1.M d = some r1 ∧ cellAt t2.M d = some r2 ∧ cellAt t3.M d = some r3 ∧
      ((r1 = 1 ∧ r2 = 0 ∧ r3 = 0) ∨ (r1 = 0 ∧ r2 = 1 ∧ r3 = 0) ∨ (r1 = 0 ∧ r2 = 0 ∧ r3 = 1))

/-! ### Where an instruction traps -/

/-- R76, R123: a read parameter that cannot be resolved faults before anything later in the instruction is
looked at, in ascending parameter number; an untaken jump's target too. -/
def Obligations.UnresolvableOperandFaults : Prop :=
  ∀ (i : Instr) (s : State) (raw : Int) (f : Trap), cellAt s.M s.pc = some raw →
    (∀ a rest, i.reads = a :: rest → OperandFault s raw a f → exec i s = .next (faultEntry s f.cause f.info)) ∧
    (∀ a b x, i.reads = [a, b] → HasValue s a x → OperandFault s raw b f →
      exec i s = .next (faultEntry s f.cause f.info))

/-- R34, R77, R123: with its operands there, an instruction whose destination is not a valid address raises
OutOfBounds of it and writes nothing. -/
def Obligations.DestinationOutsideMemoryFaults : Prop :=
  ∀ (i : Instr) (s : State) (d : Int), i.dest = some d → (∀ o ∈ i.reads, ∃ v, HasValue s o v) →
    (i.opcode = .input → s.inp ≠ none) → ¬Valid s d →
    exec i s = .next (faultEntry s .outOfBounds d)

/-- R95: IN without a supplied input raises NoInput(raw), before its destination is checked. -/
def Obligations.InWithoutInputFaults : Prop :=
  ∀ (s : State) (raw d : Int), cellAt s.M s.pc = some raw → s.inp = none →
    exec (.input d) s = .next (faultEntry s .noInput raw)

/-- R122: the causes each instruction can raise; UnknownMode only with an illegal mode digit. -/
def Obligations.CausesEachInstructionCanRaise : Prop :=
  ∀ (i : Instr) (s t : State), s.run ≠ .faulted → exec i s = .next t → t.run = .faulted →
    match i.opcode with
    | .halt => False
    | .input => t.fcause = some .outOfBounds ∨ (t.fcause = some .noInput ∧ s.inp = none)
    | .output => t.fcause = some .outOfBounds ∨ (t.fcause = some .unknownMode ∧ i.wellFormed = false)
    | .jnz => t.fcause = some .outOfBounds ∨ (t.fcause = some .unknownMode ∧ i.wellFormed = false)
    | .jz => t.fcause = some .outOfBounds ∨ (t.fcause = some .unknownMode ∧ i.wellFormed = false)
    | .add => t.fcause = some .outOfBounds ∨ (t.fcause = some .unknownMode ∧ i.wellFormed = false)
    | .mul => t.fcause = some .outOfBounds ∨ (t.fcause = some .unknownMode ∧ i.wellFormed = false)
    | .lt => t.fcause = some .outOfBounds ∨ (t.fcause = some .unknownMode ∧ i.wellFormed = false)
    | .eq => t.fcause = some .outOfBounds ∨ (t.fcause = some .unknownMode ∧ i.wellFormed = false)

/-- R102: a taken jump to an address that is not valid completes, and the fetch after it faults there. -/
def Obligations.JumpOutsideMemoryFaultsAtTheNextFetch : Prop :=
  ∀ (s : State) (a b : Operand) (x y : Int), s.run = .running →
    (∀ n, s.cfg.maxSteps = some n → s.steps + 1 < n) → HasValue s a x → HasValue s b y → ¬Valid s y →
    (x ≠ 0 → ∃ t, exec (.jnz a b) s = .next t ∧ t.pc = y ∧ t.steps = s.steps + 1 ∧
      step t = .next (faultEntry t .outOfBounds y)) ∧
    (x = 0 → ∃ t, exec (.jz a b) s = .next t ∧ t.pc = y ∧ t.steps = s.steps + 1 ∧
      step t = .next (faultEntry t .outOfBounds y))

/-! ### Frames -/

/-- R34, R35: no instruction changes the extent of memory, or any cell but the one at its destination
address; OUT, JNZ, JZ and HALT have none and change no cell. -/
def Obligations.InstructionChangesOnlyItsDestinationCell : Prop :=
  ∀ (i : Instr) (s t : State), exec i s = .next t →
    t.M.length = s.M.length ∧ ∀ a : Int, i.dest ≠ some a → cellAt t.M a = cellAt s.M a

/-- R13, R16, R17, R18, R20, R110, R124: an instruction that completes leaves every register but `pc` and the
step count alone, `out` excepted for OUT and `run` for HALT; one that faults changes the run state and the
fault record only. -/
def Obligations.InstructionChangesOnlyItsRegisters : Prop :=
  ∀ (i : Instr) (s t : State), exec i s = .next t →
    (t.P = s.P ∧ t.cfg = s.cfg ∧ t.inp = s.inp ∧ t.steps = s.steps + 1 ∧
      t.fcause = s.fcause ∧ t.finfo = s.finfo ∧ t.fpc = s.fpc ∧
      (i.opcode ≠ .output → t.out = s.out) ∧ (i.opcode ≠ .halt → t.run = s.run)) ∨
    ∃ c v, t = faultEntry s c v

/-- R16, R20, R31: whatever steps a run takes, the program store, the input register, the configuration and
the extent of memory stay as the launch left them. -/
def Obligations.RunKeepsProgramInputAndExtent : Prop :=
  ∀ s t : State, Reaches s t → t.P = s.P ∧ t.inp = s.inp ∧ t.cfg = s.cfg ∧ t.M.length = s.M.length

/-- R17, R18, R20: no instruction reads the program store, the output register or, without a limit, the
step count: what they hold changes nothing else of a step. -/
def Obligations.StepReadsNeitherProgramStoreNorOutputNorCount : Prop :=
  ∀ (s t : State) (p : Cells) (o : Option Int) (k : Nat), s.cfg.maxSteps = none → step s = .next t →
    ∃ o' k', step { s with P := p, out := o, steps := k } = .next { t with P := p, out := o', steps := k' }

/-! ### The machine as a whole -/

/-- R72: a step in `Running` is the spec's whole step, transcribed from its own text. -/
def Obligations.StepIsTheSpecsBlock : Prop :=
  ∀ s : State, s.run = .running → step s = .next (blockStep s)

/-- R71: a step is enabled exactly in `Running`, and it either completes an instruction or faults. -/
def Obligations.StepIsEnabledExactlyInRunning : Prop :=
  (∀ s : State, (∃ t, step s = .next t) ↔ s.run = .running) ∧
  (∀ s t : State, step s = .next t →
    (t.run ≠ .faulted ∧ t.steps = s.steps + 1) ∨ ∃ c v, t = faultEntry s c v)

/-- R124: a step that faults does exactly the fault entry and nothing else, and no step follows it. -/
def Obligations.FaultEntryChangesNothingElse : Prop :=
  ∀ s t : State, step s = .next t → t.run = .faulted →
    (∃ c v, t = { s with run := .faulted, fcause := some c, finfo := some v, fpc := some s.pc }) ∧
    ∀ u, step t ≠ .next u

/-- R81: a step that completes an instruction counts it, one that faults does not; so after a run that
halts `steps` is the number of instructions executed. -/
def Obligations.EveryCompletedInstructionIsCounted : Prop :=
  (∀ s t : State, step s = .next t →
    (t.run ≠ .faulted → t.steps = s.steps + 1) ∧ (t.run = .faulted → t.steps = s.steps)) ∧
  (∀ (k : Nat) (s t : State), Host.Core.run Sys2Proof.core k s = .next t → t.run = .halted → s.run = .running →
    t.steps = s.steps + k)

/-- R126: without a limit the fault never occurs; with the limit `n` a step at `n` completed instructions
faults before the fetch, a step below it does not, and at most `n` instructions complete in a run. -/
def Obligations.WatchdogAllowsExactlyTheLimit : Prop :=
  (∀ (s : State) (v : Int), BelowLimit s → step s ≠ .next (faultEntry s .stepLimitExceeded v)) ∧
  (∀ (s : State) (n : Nat), s.run = .running → s.cfg.maxSteps = some n → n ≤ s.steps →
    step s = .next (faultEntry s .stepLimitExceeded s.steps)) ∧
  (∀ (cfg : Config) (n : Nat) (p : Cells) (ov : Option Override) (iv : Option Int) (t : State),
    cfg.maxSteps = some n → Reaches (launched cfg p ov iv) t → t.steps ≤ n)

/-- R15, R121: the fault record a step writes tells what happened. -/
def Obligations.FaultRecordTellsTheCause : Prop :=
  ∀ s t : State, s.Inv → step s = .next t →
    match t.fcause with
    | none => t.run ≠ .faulted ∧ t.finfo = none ∧ t.fpc = none
    | some .unknownOpcode => t.fpc = some s.pc ∧
      ∃ raw, cellAt s.M s.pc = some raw ∧ t.finfo = some raw ∧ ¬HasOpcode raw
    | some .outOfBounds => t.fpc = some s.pc ∧ ∃ a, t.finfo = some a ∧ ¬Valid s a
    | some .stepLimitExceeded => t.fpc = some s.pc ∧
      ∃ n : Nat, s.cfg.maxSteps = some n ∧ s.steps = n ∧ t.finfo = some (n : Int)
    | some .unknownMode => t.fpc = some s.pc ∧
      ∃ raw, cellAt s.M s.pc = some raw ∧ t.finfo = some raw ∧ HasOpcode raw ∧ HasUnknownMode raw
    | some .noInput => t.fpc = some s.pc ∧ s.inp = none ∧
      ∃ raw, cellAt s.M s.pc = some raw ∧ t.finfo = some raw ∧ 0 ≤ raw ∧ raw % 100 = 3

/-- R111: only a HALT word leads into `Halted`, and it leaves memory, output and `pc` as they were. -/
def Obligations.OnlyAHaltWordLeadsIntoHalted : Prop :=
  ∀ s t : State, step s = .next t → t.run = .halted →
    (∃ raw, cellAt s.M s.pc = some raw ∧ 0 ≤ raw ∧ raw % 100 = 99) ∧ t.M = s.M ∧ t.out = s.out ∧ t.pc = s.pc

/-- R14, R15, R31, R126: every step keeps the invariant. -/
def Obligations.StepKeepsTheInvariant : Prop :=
  ∀ s t : State, s.Inv → step s = .next t → t.Inv

/-- The reset state meets the invariant. What the reset state is, the launch of the empty program without
limits, is the model's choice (notes/assumptions/3.md and 4.md): R24 leaves the state before a load
unspecified. -/
def Obligations.ResetMeetsTheInvariant : Prop := State.reset.Inv

/-- Every launch of every program meets the invariant, one whose override faults too (R141, R143). -/
def Obligations.LaunchMeetsTheInvariant : Prop :=
  ∀ (cfg : Config) (p : Cells) (ov : Option Override) (iv : Option Int), (launched cfg p ov iv).Inv

/-- R24, R141: the reset state has the values of Table R24. That the program store is empty and that there is
no limit is the model's choice (notes/assumptions/3.md and 4.md). -/
def Obligations.ResetIsTheLaunchOfTheEmptyProgram : Prop :=
  load { maxSteps := none, maxProgramLen := none } [] none none = .next State.reset ∧
  State.reset.run = .running ∧ State.reset.pc = 0 ∧ State.reset.out = none ∧ State.reset.inp = none ∧
  State.reset.steps = 0 ∧ NoRecord State.reset ∧ State.reset.M = State.reset.P

/-! ### The host's actions -/

/-- R140: a load is refused exactly where the program is longer than the program store accepts; every other
program loads. That an accepted load answers the launched machine, load and first launch being one action, is
the model's choice (notes/assumptions/11.md, allowed by U19): R140's load starts no run. -/
def Obligations.LoadRefusesOnlyAProgramThatIsTooLong : Prop :=
  ∀ (cfg : Config) (p : Cells) (ov : Option Override) (iv : Option Int),
    ((∃ m, cfg.maxProgramLen = some m ∧ m < p.length) → load cfg p ov iv = .refused .programTooLong) ∧
    ((∀ m, cfg.maxProgramLen = some m → p.length ≤ m) → load cfg p ov iv = .next (launched cfg p ov iv))

/-- R141: what a launch leaves, from any state in which a run has ended; there is none in `Running`. -/
def Obligations.LaunchResetsEverythingButTheProgram : Prop :=
  ∀ (s : State) (iv : Option Int),
    (s.run ≠ .running → launch none iv s = .next
      { P := s.P, M := s.P, pc := 0, inp := iv, out := none, run := .running, fcause := none, finfo := none,
        fpc := none, steps := 0, cfg := s.cfg }) ∧
    (∀ noun verb : Int, s.run ≠ .running → 3 ≤ s.P.length → launch (some ⟨noun, verb⟩) iv s = .next
      { P := s.P, M := (s.P.set 1 noun).set 2 verb, pc := 0, inp := iv, out := none, run := .running,
        fcause := none, finfo := none, fpc := none, steps := 0, cfg := s.cfg }) ∧
    (∀ ov, s.run = .running → launch ov iv s = .refused .launchWhileRunning)

/-- R143: the override overwrites cells 1 and 2 of the working copy only; on a program of fewer than three
cells it faults the launch, cell 1 being written where it exists, and no step is taken. -/
def Obligations.OverrideWritesCellsOneAndTwoOrFaults : Prop :=
  ∀ (cfg : Config) (p : Cells) (noun verb : Int) (iv : Option Int),
    (3 ≤ p.length → launched cfg p (some ⟨noun, verb⟩) iv =
      { P := p, M := (p.set 1 noun).set 2 verb, pc := 0, inp := iv, out := none, run := .running, fcause := none,
        finfo := none, fpc := none, steps := 0, cfg := cfg }) ∧
    (p.length < 2 → launched cfg p (some ⟨noun, verb⟩) iv =
      { P := p, M := p, pc := 0, inp := iv, out := none, run := .faulted, fcause := some .outOfBounds,
        finfo := some 1, fpc := some 0, steps := 0, cfg := cfg }) ∧
    (p.length = 2 → launched cfg p (some ⟨noun, verb⟩) iv =
      { P := p, M := p.set 1 noun, pc := 0, inp := iv, out := none, run := .faulted, fcause := some .outOfBounds,
        finfo := some 2, fpc := some 0, steps := 0, cfg := cfg }) ∧
    (p.length < 3 → ∀ t, step (launched cfg p (some ⟨noun, verb⟩) iv) ≠ .next t)

/-- R25: nothing survives a run but the program: a launch after it is the launch of the freshly loaded
program. -/
def Obligations.NothingSurvivesARunButTheProgram : Prop :=
  ∀ (cfg : Config) (p : Cells) (ov ov' : Option Override) (iv iv' : Option Int) (t : State),
    Reaches (launched cfg p ov iv) t → t.run ≠ .running →
    t.P = p ∧ launch ov' iv' t = .next (launched cfg p ov' iv')

/-- R147, R148: in `Halted` the host gets `M[0]`, which exists, and `out` with NoOutput kept apart from every
integer; in `Faulted` it gets the fault record and nothing else. That a read of what R153 does not call valid
answers nothing (every result in `Running`, the fault record in `Halted`) is the model's choice
(notes/assumptions/15.md). -/
def Obligations.ResultsAreThoseOfTheTerminalState : Prop :=
  ∀ s : State, s.Inv →
    (s.run = .halted → (∃ v, resultMem0 s = some v ∧ cellAt s.M 0 = some v) ∧ finalMem s = some s.M ∧
      (s.out = none → resultOut s = some .noOutput) ∧ (∀ v, s.out = some v → resultOut s = some (.value v)) ∧
      diagnosis s = some (s.pc, s.steps) ∧ faultRecord s = none) ∧
    (s.run = .faulted → resultMem0 s = none ∧ resultOut s = none ∧ finalMem s = none ∧ diagnosis s = none ∧
      ∃ c v, faultRecord s = some ⟨c, v, s.pc⟩ ∧ s.fcause = some c ∧ s.finfo = some v ∧ s.fpc = some s.pc) ∧
    (s.run = .running → resultMem0 s = none ∧ resultOut s = none ∧ finalMem s = none ∧ diagnosis s = none ∧
      faultRecord s = none)

/-- R82, R163: what a run has come to when it has ended does not depend on the fuel it was given. -/
def Obligations.FinishedRunDoesNotDependOnTheFuel : Prop :=
  ∀ (n m : Nat) (s t : State), n ≤ m →
    (runLoop n s = .halted t → runLoop m s = .halted t ∧ Reaches s t ∧ Final t) ∧
    (runLoop n s = .faulted t → runLoop m s = .faulted t ∧ Reaches s t ∧ t.run = .faulted)

/-- R126, R149: with the limit `n` every run of every program has ended after `n + 1` steps. -/
def Obligations.WatchdogEndsEveryRun : Prop :=
  ∀ (cfg : Config) (n : Nat) (p : Cells) (ov : Option Override) (iv : Option Int) (t : State),
    cfg.maxSteps = some n → runLoop (n + 1) (launched cfg p ov iv) ≠ .notFinished t

/-- A pair of the search whose run, and the run of every pair before it in row-major order, is as said: the
pair itself gives `r`, every earlier one a value that is not the target. -/
def FirstPair (fuel : Nat) (cfg : Config) (p : Cells) (target : Int) (noun verb : Nat) (r : CallResult) : Prop :=
  noun < 100 ∧ verb < 100 ∧ arithmeticRun fuel cfg p (some ⟨noun, verb⟩) = r ∧
  ∀ n v : Nat, n < 100 → v < 100 → n * 100 + v < noun * 100 + verb →
    ∃ w, w ≠ target ∧ arithmeticRun fuel cfg p (some ⟨n, v⟩) = .value w

/-- R152: the search returns the first pair in row-major order whose run gives the target, encoded as
`noun * 100 + verb`, exactly where there is one before any run that does not give a value; the fault of the
first run that faults exactly where every run before it gives another value; and NotFound exactly where all
10000 runs give other values. `fuel` bounds each run (R163): a run it does not finish gives no value. -/
def Obligations.SearchReturnsTheFirstMatch : Prop :=
  ∀ (fuel : Nat) (cfg : Config) (p : Cells) (target : Int),
    (∀ k, findInputs fuel cfg p target = .found k ↔
      ∃ noun verb, k = noun * 100 + verb ∧ FirstPair fuel cfg p target noun verb (.value target)) ∧
    (∀ r, findInputs fuel cfg p target = .fault r ↔
      ∃ noun verb, FirstPair fuel cfg p target noun verb (.fault r)) ∧
    (findInputs fuel cfg p target = .notFound ↔
      ∀ noun verb : Nat, noun < 100 → verb < 100 →
        ∃ v, v ≠ target ∧ arithmeticRun fuel cfg p (some ⟨noun, verb⟩) = .value v)
end

