-- ==== Sys2Proof/Laws/Decode.lean ====
section
/-! SUPPORT. What the decoder's parts can do. -/

namespace Sys2Proof

@[simp] theorem opcodeOf_code (op : Opcode) : opcodeOf op.code = some op := by cases op <;> rfl

theorem code_of_opcodeOf {n : Nat} {op : Opcode} (h : opcodeOf n = some op) : op.code = n := by
  unfold opcodeOf at h
  split at h <;> first | (cases h; rfl) | cases h

theorem decodeOpcode_eq_some_iff (raw : Int) (op : Opcode) :
    decodeOpcode raw = some op ↔ 0 ≤ raw ∧ opcodeOf (raw.toNat % 100) = some op := by
  unfold decodeOpcode
  split
  · simp; omega
  · simp; omega

@[simp] theorem operandOf_modeDigit (o : Operand) : operandOf o.modeDigit o.word = o := by
  cases o with
  | position a => rfl
  | immediate v => rfl
  | unknownMode d w => simp [Operand.modeDigit, Operand.word, operandOf, Fin.ofNat, Nat.mod_eq_of_lt d.isLt]

theorem modeDigit_lt (o : Operand) : o.modeDigit < 10 := by
  cases o with
  | position a => simp [Operand.modeDigit]
  | immediate v => simp [Operand.modeDigit]
  | unknownMode d w => simp [Operand.modeDigit]; omega

@[simp] theorem word_operandOf (m : Nat) (w : Int) : (operandOf m w).word = w := by
  match m with
  | 0 => rfl
  | 1 => rfl
  | m + 2 => rfl

theorem modeDigit_operandOf {m : Nat} (h : m < 10) (w : Int) : (operandOf m w).modeDigit = m := by
  match m with
  | 0 => rfl
  | 1 => rfl
  | m + 2 => simp [operandOf, Operand.modeDigit, Fin.ofNat]; omega

theorem code_lt (op : Opcode) : op.code < 100 := by cases op <;> decide

theorem decodeOpcode_instructionWord (op : Opcode) (m1 m2 : Nat) :
    decodeOpcode (instructionWord op m1 m2) = some op := by
  rw [decodeOpcode_eq_some_iff]
  unfold instructionWord
  refine ⟨by omega, ?_⟩
  rw [Int.toNat_natCast, show (op.code + 100 * m1 + 1000 * m2) % 100 = op.code by have := code_lt op; omega]
  exact opcodeOf_code op

theorem digit_two_instructionWord (op : Opcode) {m1 : Nat} (m2 : Nat) (h : m1 < 10) :
    digit 2 (instructionWord op m1 m2).toNat = m1 := by
  unfold digit instructionWord
  have := code_lt op
  rw [Int.toNat_natCast]
  omega

theorem digit_three_instructionWord (op : Opcode) {m1 m2 : Nat} (h1 : m1 < 10) (h2 : m2 < 10) :
    digit 3 (instructionWord op m1 m2).toNat = m2 := by
  unfold digit instructionWord
  have := code_lt op
  rw [Int.toNat_natCast]
  omega

end Sys2Proof
end

