-- ==== Sys2Proof/Laws/State.lean ====
section
/-! SUPPORT. One lemma per field per state update, so that no proof unfolds a record update. -/

namespace Sys2Proof.Machine

@[simp] theorem setCell_P (a : Int) (v : Int) (s : State) : (setCell a v s).P = s.P := rfl
@[simp] theorem setCell_M (a : Int) (v : Int) (s : State) : (setCell a v s).M = s.M.set a.toNat v := rfl
@[simp] theorem setCell_pc (a : Int) (v : Int) (s : State) : (setCell a v s).pc = s.pc := rfl
@[simp] theorem setCell_inp (a : Int) (v : Int) (s : State) : (setCell a v s).inp = s.inp := rfl
@[simp] theorem setCell_out (a : Int) (v : Int) (s : State) : (setCell a v s).out = s.out := rfl
@[simp] theorem setCell_run (a : Int) (v : Int) (s : State) : (setCell a v s).run = s.run := rfl
@[simp] theorem setCell_fcause (a : Int) (v : Int) (s : State) : (setCell a v s).fcause = s.fcause := rfl
@[simp] theorem setCell_finfo (a : Int) (v : Int) (s : State) : (setCell a v s).finfo = s.finfo := rfl
@[simp] theorem setCell_fpc (a : Int) (v : Int) (s : State) : (setCell a v s).fpc = s.fpc := rfl
@[simp] theorem setCell_steps (a : Int) (v : Int) (s : State) : (setCell a v s).steps = s.steps := rfl
@[simp] theorem setCell_cfg (a : Int) (v : Int) (s : State) : (setCell a v s).cfg = s.cfg := rfl

@[simp] theorem takeFault_P (t : Trap) (s : State) : (takeFault t s).P = s.P := rfl
@[simp] theorem takeFault_M (t : Trap) (s : State) : (takeFault t s).M = s.M := rfl
@[simp] theorem takeFault_pc (t : Trap) (s : State) : (takeFault t s).pc = s.pc := rfl
@[simp] theorem takeFault_inp (t : Trap) (s : State) : (takeFault t s).inp = s.inp := rfl
@[simp] theorem takeFault_out (t : Trap) (s : State) : (takeFault t s).out = s.out := rfl
@[simp] theorem takeFault_run (t : Trap) (s : State) : (takeFault t s).run = .faulted := rfl
@[simp] theorem takeFault_fcause (t : Trap) (s : State) : (takeFault t s).fcause = some t.cause := rfl
@[simp] theorem takeFault_finfo (t : Trap) (s : State) : (takeFault t s).finfo = some t.info := rfl
@[simp] theorem takeFault_fpc (t : Trap) (s : State) : (takeFault t s).fpc = some s.pc := rfl
@[simp] theorem takeFault_steps (t : Trap) (s : State) : (takeFault t s).steps = s.steps := rfl
@[simp] theorem takeFault_cfg (t : Trap) (s : State) : (takeFault t s).cfg = s.cfg := rfl

@[simp] theorem advance_P (n : Nat) (s : State) : (advance n s).P = s.P := rfl
@[simp] theorem advance_M (n : Nat) (s : State) : (advance n s).M = s.M := rfl
@[simp] theorem advance_pc (n : Nat) (s : State) : (advance n s).pc = s.pc + n := rfl
@[simp] theorem advance_inp (n : Nat) (s : State) : (advance n s).inp = s.inp := rfl
@[simp] theorem advance_out (n : Nat) (s : State) : (advance n s).out = s.out := rfl
@[simp] theorem advance_run (n : Nat) (s : State) : (advance n s).run = s.run := rfl
@[simp] theorem advance_fcause (n : Nat) (s : State) : (advance n s).fcause = s.fcause := rfl
@[simp] theorem advance_finfo (n : Nat) (s : State) : (advance n s).finfo = s.finfo := rfl
@[simp] theorem advance_fpc (n : Nat) (s : State) : (advance n s).fpc = s.fpc := rfl
@[simp] theorem advance_steps (n : Nat) (s : State) : (advance n s).steps = s.steps := rfl
@[simp] theorem advance_cfg (n : Nat) (s : State) : (advance n s).cfg = s.cfg := rfl

@[simp] theorem jumpTo_P (b : Int) (s : State) : (jumpTo b s).P = s.P := rfl
@[simp] theorem jumpTo_M (b : Int) (s : State) : (jumpTo b s).M = s.M := rfl
@[simp] theorem jumpTo_pc (b : Int) (s : State) : (jumpTo b s).pc = b := rfl
@[simp] theorem jumpTo_inp (b : Int) (s : State) : (jumpTo b s).inp = s.inp := rfl
@[simp] theorem jumpTo_out (b : Int) (s : State) : (jumpTo b s).out = s.out := rfl
@[simp] theorem jumpTo_run (b : Int) (s : State) : (jumpTo b s).run = s.run := rfl
@[simp] theorem jumpTo_fcause (b : Int) (s : State) : (jumpTo b s).fcause = s.fcause := rfl
@[simp] theorem jumpTo_finfo (b : Int) (s : State) : (jumpTo b s).finfo = s.finfo := rfl
@[simp] theorem jumpTo_fpc (b : Int) (s : State) : (jumpTo b s).fpc = s.fpc := rfl
@[simp] theorem jumpTo_steps (b : Int) (s : State) : (jumpTo b s).steps = s.steps := rfl
@[simp] theorem jumpTo_cfg (b : Int) (s : State) : (jumpTo b s).cfg = s.cfg := rfl

@[simp] theorem capture_P (a : Int) (s : State) : (capture a s).P = s.P := rfl
@[simp] theorem capture_M (a : Int) (s : State) : (capture a s).M = s.M := rfl
@[simp] theorem capture_pc (a : Int) (s : State) : (capture a s).pc = s.pc := rfl
@[simp] theorem capture_inp (a : Int) (s : State) : (capture a s).inp = s.inp := rfl
@[simp] theorem capture_out (a : Int) (s : State) : (capture a s).out = some a := rfl
@[simp] theorem capture_run (a : Int) (s : State) : (capture a s).run = s.run := rfl
@[simp] theorem capture_fcause (a : Int) (s : State) : (capture a s).fcause = s.fcause := rfl
@[simp] theorem capture_finfo (a : Int) (s : State) : (capture a s).finfo = s.finfo := rfl
@[simp] theorem capture_fpc (a : Int) (s : State) : (capture a s).fpc = s.fpc := rfl
@[simp] theorem capture_steps (a : Int) (s : State) : (capture a s).steps = s.steps := rfl
@[simp] theorem capture_cfg (a : Int) (s : State) : (capture a s).cfg = s.cfg := rfl

@[simp] theorem enterHalted_P (s : State) : (enterHalted s).P = s.P := rfl
@[simp] theorem enterHalted_M (s : State) : (enterHalted s).M = s.M := rfl
@[simp] theorem enterHalted_pc (s : State) : (enterHalted s).pc = s.pc := rfl
@[simp] theorem enterHalted_inp (s : State) : (enterHalted s).inp = s.inp := rfl
@[simp] theorem enterHalted_out (s : State) : (enterHalted s).out = s.out := rfl
@[simp] theorem enterHalted_run (s : State) : (enterHalted s).run = .halted := rfl
@[simp] theorem enterHalted_fcause (s : State) : (enterHalted s).fcause = s.fcause := rfl
@[simp] theorem enterHalted_finfo (s : State) : (enterHalted s).finfo = s.finfo := rfl
@[simp] theorem enterHalted_fpc (s : State) : (enterHalted s).fpc = s.fpc := rfl
@[simp] theorem enterHalted_steps (s : State) : (enterHalted s).steps = s.steps := rfl
@[simp] theorem enterHalted_cfg (s : State) : (enterHalted s).cfg = s.cfg := rfl

@[simp] theorem countStep_P (s : State) : (countStep s).P = s.P := rfl
@[simp] theorem countStep_M (s : State) : (countStep s).M = s.M := rfl
@[simp] theorem countStep_pc (s : State) : (countStep s).pc = s.pc := rfl
@[simp] theorem countStep_inp (s : State) : (countStep s).inp = s.inp := rfl
@[simp] theorem countStep_out (s : State) : (countStep s).out = s.out := rfl
@[simp] theorem countStep_run (s : State) : (countStep s).run = s.run := rfl
@[simp] theorem countStep_fcause (s : State) : (countStep s).fcause = s.fcause := rfl
@[simp] theorem countStep_finfo (s : State) : (countStep s).finfo = s.finfo := rfl
@[simp] theorem countStep_fpc (s : State) : (countStep s).fpc = s.fpc := rfl
@[simp] theorem countStep_steps (s : State) : (countStep s).steps = s.steps + 1 := rfl
@[simp] theorem countStep_cfg (s : State) : (countStep s).cfg = s.cfg := rfl

end Sys2Proof.Machine
end

