-- ==== Sys2Proof/Laws/Memory.lean ====
section
/-! SUPPORT. What reading and writing memory can do (spec/20_memory.md rules R31 to R34), and that every
memory operation keeps the extent. -/

namespace Sys2Proof.Machine

/-! ### One cell -/

theorem cellAt_eq_none_iff (m : Memory) (a : Int) : cellAt m a = none ↔ ¬(0 ≤ a ∧ a < m.length) := by
  unfold cellAt
  split
  · simp; omega
  · simp; omega

theorem cellAt_eq_some_iff (m : Memory) (a : Int) (v : Int) :
    cellAt m a = some v ↔ 0 ≤ a ∧ m[a.toNat]? = some v := by
  unfold cellAt
  split
  · simp; omega
  · simp; omega

theorem exists_cellAt_of_valid {s : State} {a : Int} (h : Valid s a) : ∃ v, cellAt s.M a = some v := by
  cases hc : cellAt s.M a with
  | some v => exact ⟨v, rfl⟩
  | none => exact absurd h ((cellAt_eq_none_iff _ _).mp hc)

theorem valid_of_cellAt {s : State} {a : Int} {v : Int} (h : cellAt s.M a = some v) : Valid s a := by
  by_contra hn
  rw [(cellAt_eq_none_iff _ _).mpr hn] at h
  cases h

theorem cellAt_set_self {s : State} {a : Int} (h : Valid s a) (v : Int) :
    cellAt (s.M.set a.toNat v) a = some v := by
  rw [cellAt_eq_some_iff]
  refine ⟨h.1, ?_⟩
  rw [List.getElem?_set_self (by have := h.2; omega)]

theorem cellAt_set_other (m : Memory) {a b : Int} (v : Int) (ha : 0 ≤ a) (h : b ≠ a) :
    cellAt (m.set a.toNat v) b = cellAt m b := by
  unfold cellAt
  split
  · rfl
  · rw [List.getElem?_set_ne (by omega)]

/-! ### The two accessors -/

theorem memRead_eq_ok_iff (a : Int) (s : State) (v : Int) : memRead a s = .ok v ↔ cellAt s.M a = some v := by
  unfold memRead
  split <;> simp_all

theorem memRead_eq_error_iff (a : Int) (s : State) (t : Trap) :
    memRead a s = .error t ↔ ¬Valid s a ∧ t = ⟨.outOfBounds, a⟩ := by
  unfold memRead
  split
  · rename_i v h
    have := valid_of_cellAt h
    simp [this]
  · rename_i h
    have := (cellAt_eq_none_iff _ _).mp h
    simp [Valid, this, eq_comm]

theorem memWrite_eq_ok_iff (a : Int) (v : Int) (s t : State) :
    memWrite a v s = .ok t ↔ Valid s a ∧ t = setCell a v s := by
  unfold memWrite memLen Valid
  split
  · simp; omega
  · simp [eq_comm]; omega

theorem memWrite_eq_error_iff (a : Int) (v : Int) (s : State) (t : Trap) :
    memWrite a v s = .error t ↔ ¬Valid s a ∧ t = ⟨.outOfBounds, a⟩ := by
  unfold memWrite memLen Valid
  split
  · rename_i h
    have : ¬(0 ≤ a ∧ a < (s.M.length : Int)) := by omega
    simp [this, eq_comm]
  · simp; omega

/-! ### The extent -/

theorem memWrite_keeps_wf {n : Nat} {a : Int} {v : Int} {s t : State} (h : memWrite a v s = .ok t)
    (hw : s.M.wf n) : t.M.wf n := by
  obtain ⟨-, rfl⟩ := (memWrite_eq_ok_iff _ _ _ _).mp h
  simpa [Memory.wf] using hw

theorem launchWrite_keeps_wf (n : Nat) (a : Int) (v : Int) (s : State) (hw : s.M.wf n) :
    (launchWrite a v s).M.wf n := by
  unfold launchWrite
  split
  · rename_i t h
    exact memWrite_keeps_wf h hw
  · exact hw

theorem applyOverride_keeps_wf (n : Nat) (o : Override) (s : State) (hw : s.M.wf n) :
    (applyOverride o s).M.wf n := by
  unfold applyOverride
  split
  · rename_i t h
    exact launchWrite_keeps_wf n 2 o.verb t (memWrite_keeps_wf h hw)
  · exact hw

theorem launched_wf (cfg : Config) (p : Cells) (ov : Option Override) (iv : Option Int) :
    (launched cfg p ov iv).M.wf p.length := by
  cases ov with
  | none => rfl
  | some o => exact applyOverride_keeps_wf _ o _ rfl

theorem reset_mem_wf : State.reset.M.wf State.reset.P.length := rfl

/-! ### The cells an instruction is fetched from -/

theorem cellsFrom_eq_nil_of_invalid {s : State} {a : Int} (h : ¬Valid s a) : cellsFrom s.M a = [] := by
  unfold cellsFrom
  split
  · rfl
  · exact List.drop_eq_nil_of_le (by unfold Valid at h; omega)

/-- Fetch and parameter fetch read the cells `MemRead` reads (R45, R75). -/
theorem cellsFrom_getElem? (m : Memory) {a : Int} (h : 0 ≤ a) (k : Nat) :
    (cellsFrom m a)[k]? = cellAt m (a + k) := by
  unfold cellsFrom cellAt
  rw [if_neg (by omega), if_neg (by omega), List.getElem?_drop]
  congr 1
  omega

theorem cellsFrom_length {s : State} {a : Int} (h : Valid s a) :
    ((cellsFrom s.M a).length : Int) = s.M.length - a := by
  unfold cellsFrom
  rw [if_neg (by have := h.1; omega), List.length_drop]
  have := h.1; have := h.2; omega

theorem exists_cellsFrom_cons {s : State} {a : Int} {raw : Int} (h : cellAt s.M a = some raw) :
    ∃ args, cellsFrom s.M a = raw :: args := by
  have hv := valid_of_cellAt h
  have h0 := cellsFrom_getElem? s.M hv.1 0
  rw [show a + ((0 : Nat) : Int) = a by omega, h] at h0
  cases hc : cellsFrom s.M a with
  | nil => rw [hc] at h0; cases h0
  | cons x xs =>
    rw [hc] at h0
    exact ⟨xs, by simpa using h0⟩

end Sys2Proof.Machine
end

