-- ==== Sys2Proof/Laws/Ops.lean ====
section
/-! SUPPORT. What each shared operation can do, said once: the watchdog, operand resolution, the shapes of
the formats RRW and RR, the end of an instruction, and a step. -/

namespace Sys2Proof.Machine

/-! ### The watchdog -/

theorem watchdog_eq_ok_iff (s : State) : watchdog s = .ok () ↔ BelowLimit s := by
  unfold watchdog BelowLimit
  cases h : s.cfg.maxSteps with
  | none => simp
  | some n =>
    dsimp only
    split
    · simp; omega
    · simp; omega

theorem watchdog_eq_error_iff (s : State) (t : Trap) :
    watchdog s = .error t ↔ ∃ n, s.cfg.maxSteps = some n ∧ n ≤ s.steps ∧ t = ⟨.stepLimitExceeded, s.steps⟩ := by
  unfold watchdog
  cases h : s.cfg.maxSteps with
  | none => simp
  | some n =>
    dsimp only
    split
    · rename_i hn
      simp [hn, eq_comm]
    · rename_i hn
      simp [hn]

/-! ### Operands -/

theorem raiseWithWord_of_word {α : Type} {c : Cause} {s : State} {raw : Int} (h : cellAt s.M s.pc = some raw) :
    raiseWithWord (α := α) c s = .error ⟨c, raw⟩ := by
  unfold raiseWithWord
  rw [(memRead_eq_ok_iff _ _ _).mpr h]

theorem raiseWithWord_ne_ok {α : Type} (c : Cause) (s : State) (v : α) : raiseWithWord c s ≠ .ok v := by
  unfold raiseWithWord
  split <;> simp

theorem raiseWithWord_cause {α : Type} {c : Cause} {s : State} {t : Trap}
    (h : raiseWithWord (α := α) c s = .error t) : t.cause = c ∨ t.cause = .outOfBounds := by
  unfold raiseWithWord at h
  split at h
  · cases h; exact .inl rfl
  · rename_i f hf
    cases h
    exact .inr (by rw [((memRead_eq_error_iff _ _ _).mp hf).2])

theorem resolve_eq_ok_iff (o : Operand) (s : State) (v : Int) : resolve o s = .ok v ↔ HasValue s o v := by
  cases o with
  | position a => exact memRead_eq_ok_iff a s v
  | immediate w => simp [resolve, HasValue, eq_comm]
  | unknownMode d w => simp [resolve, HasValue, raiseWithWord_ne_ok]

theorem resolve_eq_error_iff {s : State} {raw : Int} (hw : cellAt s.M s.pc = some raw) (o : Operand) (t : Trap) :
    resolve o s = .error t ↔ OperandFault s raw o t := by
  cases o with
  | position a => exact memRead_eq_error_iff a s t
  | immediate w => simp [resolve, OperandFault]
  | unknownMode d w => simp [resolve, OperandFault, raiseWithWord_of_word hw, eq_comm]

theorem resolve_cause {o : Operand} {s : State} {t : Trap} (h : resolve o s = .error t) :
    t.cause = .outOfBounds ∨ (t.cause = .unknownMode ∧ o.legal = false) := by
  cases o with
  | position a => exact .inl (by rw [((memRead_eq_error_iff _ _ _).mp h).2])
  | immediate w => cases h
  | unknownMode d w =>
    rcases raiseWithWord_cause h with hc | hc
    · exact .inr ⟨hc, rfl⟩
    · exact .inl hc

theorem resolveTwo_eq_ok_iff (a b : Operand) (s : State) (x y : Int) :
    resolveTwo a b s = .ok (x, y) ↔ HasValue s a x ∧ HasValue s b y := by
  simp only [← resolve_eq_ok_iff, resolveTwo]
  cases resolve a s <;> cases resolve b s <;> simp [bind, Except.bind, pure, Except.pure]

theorem resolveTwo_eq_error_iff (a b : Operand) (s : State) (t : Trap) :
    resolveTwo a b s = .error t ↔
      resolve a s = .error t ∨ ((∃ x, HasValue s a x) ∧ resolve b s = .error t) := by
  simp only [← resolve_eq_ok_iff, resolveTwo]
  cases resolve a s <;> cases resolve b s <;> simp [bind, Except.bind, pure, Except.pure]

/-! ### The formats RRW and RR -/

theorem storeResult_eq_ok_iff (f : Int → Int → Int) (a b : Operand) (d : Int) (s t : State) :
    storeResult f a b d s = .ok t ↔
      ∃ x y, HasValue s a x ∧ HasValue s b y ∧ Valid s d ∧ t = advance 4 (setCell d (f x y) s) := by
  unfold storeResult
  constructor
  · intro h
    cases hr : resolveTwo a b s with
    | error e => simp [hr, bind, Except.bind] at h
    | ok p =>
      obtain ⟨x, y⟩ := p
      cases hm : memWrite d (f x y) s with
      | error e => simp [hr, hm, bind, Except.bind] at h
      | ok u =>
        simp [hr, hm, bind, Except.bind, pure, Except.pure] at h
        obtain ⟨hx, hy⟩ := (resolveTwo_eq_ok_iff _ _ _ _ _).mp hr
        obtain ⟨hv, rfl⟩ := (memWrite_eq_ok_iff _ _ _ _).mp hm
        exact ⟨x, y, hx, hy, hv, h.symm⟩
  · rintro ⟨x, y, hx, hy, hv, rfl⟩
    simp [(resolveTwo_eq_ok_iff _ _ _ _ _).mpr ⟨hx, hy⟩, (memWrite_eq_ok_iff _ _ _ _).mpr ⟨hv, rfl⟩, bind,
      Except.bind, pure, Except.pure]

theorem storeResult_eq_error_iff (f : Int → Int → Int) (a b : Operand) (d : Int) (s : State) (t : Trap) :
    storeResult f a b d s = .error t ↔
      resolveTwo a b s = .error t ∨
        ((∃ x y, HasValue s a x ∧ HasValue s b y) ∧ ¬Valid s d ∧ t = ⟨.outOfBounds, d⟩) := by
  unfold storeResult
  cases hr : resolveTwo a b s with
  | error e =>
    have hno : ¬((∃ x y, HasValue s a x ∧ HasValue s b y) ∧ ¬Valid s d ∧ t = ⟨.outOfBounds, d⟩) := by
      rintro ⟨⟨x, y, h⟩, -⟩
      rw [(resolveTwo_eq_ok_iff _ _ _ _ _).mpr h] at hr
      cases hr
    rw [or_iff_left hno]
    simp [bind, Except.bind]
  | ok p =>
    obtain ⟨x, y⟩ := p
    have he : ∃ x y, HasValue s a x ∧ HasValue s b y := ⟨x, y, (resolveTwo_eq_ok_iff _ _ _ _ _).mp hr⟩
    rw [and_iff_right he, ← memWrite_eq_error_iff d (f x y) s t]
    cases hm : memWrite d (f x y) s <;> simp [hm, bind, Except.bind, pure, Except.pure]

theorem jumpWhen_eq_ok_iff (p : Int → Bool) (a b : Operand) (s t : State) :
    jumpWhen p a b s = .ok t ↔
      ∃ x y, HasValue s a x ∧ HasValue s b y ∧ t = if p x then jumpTo y s else advance 3 s := by
  unfold jumpWhen
  constructor
  · intro h
    cases hr : resolveTwo a b s with
    | error e => simp [hr, bind, Except.bind] at h
    | ok q =>
      obtain ⟨x, y⟩ := q
      simp [hr, bind, Except.bind, pure, Except.pure] at h
      obtain ⟨hx, hy⟩ := (resolveTwo_eq_ok_iff _ _ _ _ _).mp hr
      exact ⟨x, y, hx, hy, h.symm⟩
  · rintro ⟨x, y, hx, hy, rfl⟩
    simp [(resolveTwo_eq_ok_iff _ _ _ _ _).mpr ⟨hx, hy⟩, bind, Except.bind, pure, Except.pure]

theorem jumpWhen_eq_error_iff (p : Int → Bool) (a b : Operand) (s : State) (t : Trap) :
    jumpWhen p a b s = .error t ↔ resolveTwo a b s = .error t := by
  unfold jumpWhen
  cases resolveTwo a b s <;> simp [bind, Except.bind, pure, Except.pure]

/-! ### The end of an instruction -/

theorem conclude_eq_next_iff (s t : State) (r : Access State) :
    conclude s r = .next t ↔
      (∃ u, r = .ok u ∧ t = countStep u) ∨ (∃ f, r = .error f ∧ t = takeFault f s) := by
  cases r <;> simp [conclude, eq_comm]

/-- The part of an instruction before its end, as `exec` concludes it. -/
def body (i : Instr) (s : State) : Access State :=
  match i with
  | .add a b d => storeResult (fun x y => x + y) a b d s
  | .mul a b d => storeResult (fun x y => x * y) a b d s
  | .input d =>
    match s.inp with
    | none => raiseWithWord .noInput s
    | some v => (memWrite d v s).map (advance 2)
  | .output a => (resolve a s).map fun x => advance 2 (capture x s)
  | .jnz a b => jumpWhen nonZero a b s
  | .jz a b => jumpWhen (fun x => !nonZero x) a b s
  | .lt a b d => storeResult (fun x y => truthValue (x < y)) a b d s
  | .eq a b d => storeResult (fun x y => truthValue (x == y)) a b d s
  | .halt => .ok (enterHalted s)

theorem exec_eq_conclude_body (i : Instr) (s : State) : exec i s = conclude s (body i s) := by
  cases i with
  | input d =>
    simp only [exec, execIn, body]
    cases s.inp with
    | none => rfl
    | some v => cases memWrite d v s <;> rfl
  | output a =>
    simp only [exec, execOut, body]
    cases resolve a s <;> rfl
  | _ => rfl

end Sys2Proof.Machine
end

