-- ==== Sys2Proof/Laws/PerInstr.lean ====
section
/-! SUPPORT. Statements for all instructions, one lemma per constructor. Family `EncodedLength`: the cells
an instruction is encoded in are as many as Table R53 says. -/

namespace Sys2Proof.Laws.EncodedLength

/-- The encoding of an instruction has its length in cells (spec/30_encoding.md rules R50, R53). -/
def Statement (i : Instr) : Prop := (encode i).length = i.length

theorem add (a b : Operand) (dest : Int) : Statement (.add a b dest) := rfl
theorem mul (a b : Operand) (dest : Int) : Statement (.mul a b dest) := rfl
theorem input (dest : Int) : Statement (.input dest) := rfl
theorem output (a : Operand) : Statement (.output a) := rfl
theorem jnz (a b : Operand) : Statement (.jnz a b) := rfl
theorem jz (a b : Operand) : Statement (.jz a b) := rfl
theorem lt (a b : Operand) (dest : Int) : Statement (.lt a b dest) := rfl
theorem eq (a b : Operand) (dest : Int) : Statement (.eq a b dest) := rfl
theorem halt : Statement .halt := rfl

end Sys2Proof.Laws.EncodedLength
end

