-- ==== Sys2Proof/Laws/Step.lean ====
section
/-! SUPPORT. What a step can do, said once. -/

namespace Sys2Proof.Machine

theorem nextInstr_eq_ok_iff (s : State) (i : Instr) : nextInstr s = .ok i ↔ BelowLimit s ∧ fetch s = .ok i := by
  rw [← watchdog_eq_ok_iff]
  unfold nextInstr
  cases h : watchdog s <;> simp [bind, Except.bind]

theorem nextInstr_eq_error_iff (s : State) (t : Trap) :
    nextInstr s = .error t ↔ watchdog s = .error t ∨ (BelowLimit s ∧ fetch s = .error t) := by
  rw [← watchdog_eq_ok_iff]
  unfold nextInstr
  cases h : watchdog s <;> simp [bind, Except.bind]

theorem fetch_eq_ok_iff (s : State) (i : Instr) : fetch s = .ok i ↔ decode (cellsFrom s.M s.pc) = .ok i := by
  unfold fetch
  cases decode (cellsFrom s.M s.pc) <;> simp

theorem fetch_eq_error_iff (s : State) (t : Trap) :
    fetch s = .error t ↔ ∃ e, decode (cellsFrom s.M s.pc) = .error e ∧ t = decodeTrap s.pc e := by
  unfold fetch
  cases decode (cellsFrom s.M s.pc) <;> simp [eq_comm]

/-- Everything a step with a next state can do. -/
theorem step_cases {s t : State} (h : step s = .next t) :
    s.run = .running ∧
      ((∃ f, nextInstr s = .error f ∧ t = takeFault f s) ∨ (∃ i, nextInstr s = .ok i ∧ exec i s = .next t)) := by
  unfold step at h
  split at h
  · cases h
  · cases h
  · rename_i hr
    refine ⟨hr, ?_⟩
    split at h
    · rename_i f hf
      cases h
      exact .inl ⟨f, hf, rfl⟩
    · rename_i i hi
      exact .inr ⟨i, hi, h⟩

end Sys2Proof.Machine
end

