-- ==== Sys2Proof/Tests/Slice0.lean ====
section
/-! SUPPORT. The model's own tests, with the expected results of spec/95_test_vectors.md and of the rules'
own examples, and for every statement with hypotheses a witness that meets them. -/

namespace Sys2Proof.Tests

open Sys2Proof.Machine

/-! ### Helpers -/

/-- A running machine with this memory and `pc`, an input if any, and a step limit if any. -/
def running (m : Cells) (pc : Int := 0) (iv : Option Int := none) (limit : Option Nat := none) : State :=
  { freshRun { maxSteps := limit, maxProgramLen := none } m iv with pc := pc }

/-- The outcome is a next state with this property. -/
def nextIs (o : Host.Outcome State Fault Refusal) (p : State → Bool) : Bool :=
  match o with
  | .next t => p t
  | .fault _ => false
  | .refused _ => false

/-- The next state has completed an instruction: this memory, `pc` and output, no fault. -/
def completes (o : Host.Outcome State Fault Refusal) (m : Cells) (pc : Int) (out : Option Int) : Bool :=
  nextIs o fun t => t.M == m && t.pc == pc && t.out == out && t.steps == 1 && t.fcause == none

/-- The next state has taken this fault and changed nothing but the record and the run state. -/
def faults (s : State) (o : Host.Outcome State Fault Refusal) (c : Cause) (i fpc : Int) : Bool :=
  nextIs o fun t => decide (t = { s with run := .faulted, fcause := some c, finfo := some i, fpc := some fpc })

/-! ### Well-formedness: each check refuses an ill-formed term (R59) -/

theorem test_wellFormed_refuses_first_operand :
    (Instr.add (.unknownMode 0 4) (.immediate 1) 0).wellFormed = false := by decide
theorem test_wellFormed_refuses_second_operand :
    (Instr.jz (.position 4) (.unknownMode 7 1)).wellFormed = false := by decide
theorem test_wellFormed_refuses_only_operand : (Instr.output (.unknownMode 3 1)).wellFormed = false := by decide
theorem test_wellFormed_accepts_any_destination : (Instr.eq (.position (-1)) (.immediate 2) (-7)).wellFormed := by decide

/-! ### Decoding: words written out from Table R51 and Table R55 -/

theorem test_decode_add : decode [11101, 2, 3, 0, 99] = .ok (.add (.immediate 2) (.immediate 3) 0) := by decide
theorem test_decode_mul : decode [1002, 4, 3, 4, 33] = .ok (.mul (.position 4) (.immediate 3) 4) := by decide
theorem test_decode_in : decode [103, 0, 99] = .ok (.input 0) := by decide
theorem test_decode_out : decode [10004, 0, 99] = .ok (.output (.position 0)) := by decide
theorem test_decode_jnz : decode [2105, 1, 4, 99] = .ok (.jnz (.immediate 1) (.unknownMode 0 4)) := by decide
theorem test_decode_jz : decode [1106, 0, 4] = .ok (.jz (.immediate 0) (.immediate 4)) := by decide
theorem test_decode_lt : decode [107, 8, 21, 20] = .ok (.lt (.immediate 8) (.position 21) 20) := by decide
theorem test_decode_eq : decode [1008, 5, 8, 5, 99, 8] = .ok (.eq (.position 5) (.immediate 8) 5) := by decide
theorem test_decode_halt : decode [12399] = .ok .halt := by decide
theorem test_decode_negative_word : decode [-1] = .error (.unknownOpcode (-1)) := by decide
theorem test_decode_short_add : decode [201, 0, 0] = .error (.missingCell 3) := by decide
theorem test_encode_notation_example :
    encode (.add (.position 9) (.immediate (-1)) 9) = [1001, 9, -1, 9] := by decide

/-! ### One step, at most two tests for each instruction -/

/-- A12: source and destination the same cell. -/
theorem test_add_reads_before_write :
    completes (step (running [1, 5, 5, 5, 99, 21])) [1, 5, 5, 5, 99, 42] 4 none := by decide
/-- A13: the ADD overwrites its own word; `pc` still advances by 4. -/
theorem test_add_overwrites_itself :
    completes (step (running [1101, 1, 2, 0, 99])) [3, 1, 2, 0, 99] 4 none := by decide
/-- A6b. -/
theorem test_mul_sign : completes (step (running [1102, -3, 4, 0, 99])) [-12, -3, 4, 0, 99] 4 none := by decide
/-- A7: no wrap at 2^63 or 2^64. -/
theorem test_mul_exact : completes (step (running [1102, 10000000000, 10000000000, 0, 99]))
    [100000000000000000000, 10000000000, 10000000000, 0, 99] 4 none := by decide
/-- I2: the mode digit of the destination is ignored. -/
theorem test_in_stores_at_address : completes (step (running [103, 0, 99] 0 (some 7))) [7, 0, 99] 2 none := by decide
/-- I3. -/
theorem test_in_without_input :
    faults (running [3, 0, 99]) (step (running [3, 0, 99])) .noInput 3 0 := by decide
/-- I6. -/
theorem test_out_immediate : completes (step (running [104, -17, 99])) [104, -17, 99] 2 (some (-17)) := by decide
/-- I9. -/
theorem test_out_unknown_mode :
    faults (running [204, 0, 99]) (step (running [204, 0, 99])) .unknownMode 204 0 := by decide
/-- J6: condition and target from memory. -/
theorem test_jnz_taken : completes (step (running [5, 7, 8, 99, 104, 7, 99, 1, 4])) [5, 7, 8, 99, 104, 7, 99, 1, 4] 4 none := by
  decide
/-- J10: the target of an untaken jump is resolved. -/
theorem test_jnz_untaken_target_faults :
    faults (running [105, 0, 99, 99]) (step (running [105, 0, 99, 99])) .outOfBounds 99 0 := by decide
/-- J3. -/
theorem test_jz_taken : completes (step (running [1106, 0, 4, 99, 104, 7, 99])) [1106, 0, 4, 99, 104, 7, 99] 4 none := by decide
/-- J4. -/
theorem test_jz_not_taken :
    completes (step (running [1106, 5, 4, 99, 104, 7, 99])) [1106, 5, 4, 99, 104, 7, 99] 3 none := by decide
/-- C1d: signed. -/
theorem test_lt_signed : completes (step (running [1107, -5, 3, 5, 99, -1])) [1107, -5, 3, 5, 99, 1] 4 none := by decide
/-- C1b: equal is not less. -/
theorem test_lt_strict : completes (step (running [1107, 8, 8, 5, 99, -1])) [1107, 8, 8, 5, 99, 0] 4 none := by decide
/-- C2: the result overwrites the operand cell. -/
theorem test_eq_equal : completes (step (running [1008, 5, 8, 5, 99, 8])) [1008, 5, 8, 5, 99, 1] 4 none := by decide
/-- C2b. -/
theorem test_eq_not_equal : completes (step (running [1108, 7, 8, 5, 99, -1])) [1108, 7, 8, 5, 99, 0] 4 none := by decide
/-- H3b: unused digits are ignored; `pc` stays at the HALT. -/
theorem test_halt : nextIs (step (running [12399])) (fun t => t.run == .halted && t.pc == 0 && t.steps == 1) := by decide

/-! ### Faults before and between (R58, R73, R75, R123, R126) -/

/-- A11d: both modes bad, one fault. -/
theorem test_fault_first_mode : faults (running [2201, 9, 9, 9, 99]) (step (running [2201, 9, 9, 9, 99])) .unknownMode 2201 0 := by
  decide
/-- A11c: a negative address is not "from the end". -/
theorem test_fault_negative_address :
    faults (running [1, 0, -2, 0, 99]) (step (running [1, 0, -2, 0, 99])) .outOfBounds (-2) 0 := by decide
/-- A11a: the parameter fetch comes before the mode check. -/
theorem test_fault_parameter_fetch : faults (running [201, 0, 0]) (step (running [201, 0, 0])) .outOfBounds 3 0 := by decide
/-- H8: an unknown opcode in the last cell. -/
theorem test_fault_unknown_opcode :
    faults (running [1105, 1, 3, 77] 3) (step (running [1105, 1, 3, 77] 3)) .unknownOpcode 77 3 := by decide
/-- H7: the empty program. -/
theorem test_fault_empty_program : faults (running []) (step (running [])) .outOfBounds 0 0 := by decide
/-- H9c: limit 0. -/
theorem test_fault_limit_zero :
    faults (running [99] 0 none (some 0)) (step (running [99] 0 none (some 0))) .stepLimitExceeded 0 0 := by decide

/-! ### Launch (R141, R143), reset and the opcode-table hooks -/

/-- L1: cell 1 written, cell 2 missing. -/
theorem test_launch_short_program : (launched { maxSteps := none, maxProgramLen := none } [99, 0] (some ⟨5, 6⟩) none) =
    { running [99, 0] with M := [99, 5], run := .faulted, fcause := some .outOfBounds, finfo := some 2, fpc := some 0 } := by
  decide
/-- S3 with the override of the source's own text. -/
theorem test_launch_override :
    (launched { maxSteps := none, maxProgramLen := none } [2, 3, 0, 3, 99] (some ⟨0, 0⟩) none).M = [2, 0, 0, 3, 99] := by decide
theorem test_reset_wf : State.reset.M.wf State.reset.P.length := by decide
theorem test_withFetchWord_halts : nextIs (step (State.reset.withFetchWord 7 99)) (fun t => t.run == .halted) := by decide
theorem test_decodeTableWord : decodeTableWord 7 99 = some .halt ∧ decodeTableWord 3 5 = some (.jnz (.position 0) (.position 0)) := by
  decide

/-! ### The notation (R63, R65): P2 and a labelled loop -/

/-- P2, its encoding as spec/95_test_vectors.md gives it. -/
theorem test_assemble_sum_loop :
    assemble [⟨none, .instr .input [] (some (.lit 16))⟩,
      ⟨none, .instr .add [.cell (.lit 16), .cell (.lit 17)] (some (.lit 17))⟩,
      ⟨none, .instr .add [.imm (.lit (-1)), .cell (.lit 16)] (some (.lit 16))⟩,
      ⟨none, .instr .jnz [.cell (.lit 16), .imm (.lit 2)] none⟩,
      ⟨none, .instr .output [.cell (.lit 17)] none⟩, ⟨none, .instr .halt [] none⟩,
      ⟨none, .data (.lit 0)⟩, ⟨none, .data (.lit 0)⟩] =
    some [3, 16, 1, 16, 17, 17, 101, -1, 16, 16, 1005, 16, 2, 4, 17, 99, 0, 0] := by decide
theorem test_assemble_label :
    assemble [⟨some "loop", .instr .jnz [.imm (.lit 1), .imm (.label "loop")] none⟩] = some [1105, 1, 0] := by decide

/-- The example of rule R63, with a label before it. -/
theorem test_notation_text : (AsmLine.mk (some "top")
    (.instr .add [.cell (.lit 9), .imm (.lit (-1))] (some (.lit 9)))).text = "top: ADD [9], #-1, [9]" := by decide
theorem test_program_text : programText [1, 0, -17, 99] = "1,0,-17,99" := by decide

/-! ### Witnesses: for every statement with hypotheses, values that meet all of them together -/

/-- The state the witnesses stand on: an ADD at 0, then a HALT in the last cell. -/
def w0 : State := running [1101, 3, 4, 4, 99]

theorem w0_belowLimit : BelowLimit w0 := by intro n h; cases h
theorem w0_ready : Ready w0 1101 := ⟨rfl, w0_belowLimit, rfl⟩

theorem witness_ReencodingKeepsExactlyTheWordsWithNoIgnoredDigit :
    decode [11101, 2, 3, 0, 99] = .ok (.add (.immediate 2) (.immediate 3) 0) ∧ ¬IgnoredDigitsZero .add 11101 ∧
    decode [1101, 2, 3, 0, 99] = .ok (.add (.immediate 2) (.immediate 3) 0) ∧ IgnoredDigitsZero .add 1101 :=
  ⟨rfl, by unfold IgnoredDigitsZero; decide, rfl, by unfold IgnoredDigitsZero; decide⟩
theorem witness_IgnoredDigitsDoNotChangeTheDecoding :
    (0 : Int) ≤ 101104 ∧ (0 : Int) ≤ 104 ∧ (101104 : Int) % 100 = 104 % 100 ∧ (101104 : Int) / 100 % 10 = 104 / 100 % 10 ∧
    (101104 : Int) % 100 = 4 ∧ HasOpcode 101104 := by unfold HasOpcode; decide
theorem witness_DecodingReadsExactlyTheInstructionsCells : decode [104, -17, 99] = .ok (.output (.immediate (-17))) := rfl
theorem witness_NotationAssemblesToTheCanonicalCells :
    (Instr.output (.immediate 5)).wellFormed = true ∧ (Instr.output (.unknownMode 0 5)).wellFormed = false := by decide
theorem witness_StepRunsTheDecodedInstruction : w0.run = .running ∧ BelowLimit w0 ∧ Valid w0 w0.pc ∧
    decode (w0.M.drop w0.pc.toNat) = .ok (.add (.immediate 3) (.immediate 4) 4) :=
  ⟨rfl, w0_belowLimit, by decide, rfl⟩
theorem witness_FetchReadsTheCellAtPcOrFaults : w0.run = .running ∧ BelowLimit w0 ∧ cellAt w0.M w0.pc = some 1101 ∧
    (running [99] 1).run = .running ∧ BelowLimit (running [99] 1) ∧ ¬Valid (running [99] 1) 1 ∧
    ¬Valid (running [99] (-1)) (-1) :=
  ⟨rfl, w0_belowLimit, rfl, rfl, fun _ h => (by cases h), by decide, by decide⟩
theorem witness_IllegalWordRaisesUnknownOpcode : Ready (running [98]) 98 ∧ ¬HasOpcode 98 ∧
    Ready (running [-1]) (-1) ∧ ¬HasOpcode (-1) ∧ Ready w0 1101 ∧ HasOpcode 1101 :=
  ⟨⟨rfl, fun _ h => (by cases h), rfl⟩, by unfold HasOpcode; decide, ⟨rfl, fun _ h => (by cases h), rfl⟩,
    by unfold HasOpcode; decide, w0_ready, by unfold HasOpcode; decide⟩
theorem witness_InstructionThatDoesNotFitFaults : Ready (running [1, 0, 0]) 1 ∧ decodeOpcode 1 = some .add ∧
    3 < Opcode.add.length ∧ Valid (running [1, 0, 0]) (0 + (3 : Nat) - 1) ∧ ¬Valid (running [1, 0, 0]) (0 + (3 : Nat)) ∧
    Ready (running [99]) 99 ∧ decodeOpcode 99 = some .halt :=
  ⟨⟨rfl, fun _ h => (by cases h), rfl⟩, rfl, by decide, by decide, by decide, ⟨rfl, fun _ h => (by cases h), rfl⟩, rfl⟩
theorem witness_UsedModeDigitAboveOneRaisesUnknownMode :
    Ready (running [204, 0]) 204 ∧ decodeOpcode 204 = some .output ∧ (204 : Int) / 100 % 10 ≥ 2 ∧
    (∀ k : Nat, k < Opcode.output.length → Valid (running [204, 0]) (0 + k)) ∧
    Ready (running [2005, 1, 4]) 2005 ∧ decodeOpcode 2005 = some .jnz ∧ (2005 : Int) / 1000 % 10 ≥ 2 ∧
    (2005 : Int) / 100 % 10 < 2 ∧ (∀ k : Nat, k < Opcode.jnz.length → Valid (running [2005, 1, 4]) (0 + k)) ∧
    (∃ w, cellAt (running [2005, 1, 4]).M (0 + 1) = some w ∧ Valid (running [2005, 1, 4]) w) :=
  ⟨⟨rfl, fun _ h => (by cases h), rfl⟩, rfl, by decide, by decide, ⟨rfl, fun _ h => (by cases h), rfl⟩, rfl, by decide,
    by decide, by decide, 1, rfl, by decide⟩
theorem witness_ArithmeticStoresTheExactResult :
    HasValue w0 (.immediate 3) 3 ∧ HasValue w0 (.position 4) 99 ∧ Valid w0 4 := ⟨rfl, rfl, by decide⟩
theorem witness_ComparisonStoresOneOrZero :
    HasValue w0 (.position 1) 3 ∧ HasValue w0 (.immediate 3) 3 ∧ Valid w0 0 := ⟨rfl, rfl, by decide⟩
theorem witness_InStoresThePendingInput :
    (running [3, 0, 99] 0 (some (-8))).inp = some (-8) ∧ Valid (running [3, 0, 99] 0 (some (-8))) 2 := by decide
theorem witness_OutCapturesItsOperand : HasValue w0 (.position 0) 1101 := rfl
theorem witness_JumpAssignsPcExactlyOnce : HasValue w0 (.immediate (-1)) (-1) ∧ HasValue w0 (.position 2) 4 := ⟨rfl, rfl⟩
theorem witness_HaltEndsTheRun : Ready (running [12399]) 12399 ∧ (0 : Int) ≤ 12399 ∧ (12399 : Int) % 100 = 99 ∧
    Ready (running [-1]) (-1) := ⟨⟨rfl, fun _ h => (by cases h), rfl⟩, by decide, by decide, ⟨rfl, fun _ h => (by cases h), rfl⟩⟩
theorem witness_NonJumpAdvancesByItsLength : ∃ t, exec (.output (.immediate 2)) w0 = .next t ∧ t.steps = w0.steps + 1 :=
  ⟨_, rfl, rfl⟩
theorem witness_ReadsPrecedeTheWriteOfAdd : cellAt w0.M 1 = some 3 ∧ Ready w0 1101 ∧ (0 : Int) ≤ 1101 ∧
    (1101 : Int) % 100 = 1 ∧ cellAt w0.M (w0.pc + 1) = some 3 ∧ cellAt w0.M (w0.pc + 2) = some 4 ∧
    cellAt (running [1101, 3, 4, 3]).M (0 + 3) = some 3 ∧
    HasValue w0 (operandOf (digit 2 (1101 : Int).toNat) 3) 3 ∧ HasValue w0 (operandOf (digit 3 (1101 : Int).toNat) 4) 4 ∧
    (0 : Int) ≤ 3 ∧ (3 : Int) ≤ 0 + 3 :=
  ⟨rfl, w0_ready, by decide, by decide, rfl, rfl, rfl, rfl, rfl, by decide, by decide⟩
theorem witness_StoreIsSeenByTheNextFetch : (Instr.add (.immediate 3) (.immediate 4) 4).dest = some 4 ∧
    StoredValue w0 (.add (.immediate 3) (.immediate 4) 4) 7 ∧ Valid w0 4 ∧
    (Instr.lt (.position 1) (.immediate 2) 0).dest = some 0 ∧ StoredValue w0 (.lt (.position 1) (.immediate 2) 0) 0 ∧
    Valid w0 0 ∧ StoredValue (running [3, 1] 0 (some 99)) (.input 1) 99 ∧
    ∃ u : State, u.run = .running ∧ BelowLimit u ∧ u.pc = 4 ∧ cellAt u.M 4 = some 7 :=
  ⟨rfl, ⟨3, 4, rfl, rfl, rfl⟩, by decide, rfl, ⟨3, 2, rfl, rfl, rfl⟩, by decide, rfl,
    running [1101, 3, 4, 4, 7] 4, rfl, fun _ h => (by cases h), rfl, rfl⟩
theorem witness_ExactlyOneComparisonStoresOne :
    HasValue w0 (.immediate (-5)) (-5) ∧ HasValue w0 (.position 1) 3 ∧ Valid w0 4 := ⟨rfl, rfl, by decide⟩
theorem witness_UnresolvableOperandFaults : cellAt w0.M w0.pc = some 1101 ∧
    (Instr.output (.position 5)).reads = [.position 5] ∧ OperandFault w0 1101 (.position 5) ⟨.outOfBounds, 5⟩ ∧
    (Instr.jnz (.immediate 0) (.unknownMode 0 9)).reads = [.immediate 0, .unknownMode 0 9] ∧
    HasValue w0 (.immediate 0) 0 ∧ OperandFault w0 1101 (.unknownMode 0 9) ⟨.unknownMode, 1101⟩ :=
  ⟨rfl, rfl, ⟨by decide, rfl⟩, rfl, rfl, rfl⟩
theorem witness_DestinationOutsideMemoryFaults : (Instr.add (.immediate 1) (.immediate 2) 5).dest = some 5 ∧
    (∀ o ∈ (Instr.add (.immediate 1) (.immediate 2) 5).reads, ∃ v, HasValue w0 o v) ∧ ¬Valid w0 5 ∧ ¬Valid w0 (-1) ∧
    (Instr.input (-1)).dest = some (-1) ∧ (running [3, -1] 0 (some 1)).inp ≠ none ∧ ¬Valid (running [3, -1] 0 (some 1)) (-1) := by
  refine ⟨rfl, fun o ho => ?_, by decide, by decide, rfl, by decide, by decide⟩
  simp only [Instr.reads, List.mem_cons, List.not_mem_nil, or_false] at ho
  rcases ho with rfl | rfl
  · exact ⟨1, rfl⟩
  · exact ⟨2, rfl⟩
theorem witness_InWithoutInputFaults : cellAt (running [103, 9]).M 0 = some 103 ∧ (running [103, 9]).inp = none := by decide
theorem witness_CausesEachInstructionCanRaise : w0.run ≠ .faulted ∧
    (∃ t, exec (.output (.position 5)) w0 = .next t ∧ t.run = .faulted) ∧
    (∃ t, exec (.jz (.unknownMode 0 5) (.immediate 0)) w0 = .next t ∧ t.run = .faulted) :=
  ⟨by decide, ⟨_, rfl, rfl⟩, ⟨_, rfl, rfl⟩⟩
theorem witness_JumpOutsideMemoryFaultsAtTheNextFetch : w0.run = .running ∧
    (∀ n, w0.cfg.maxSteps = some n → w0.steps + 1 < n) ∧ HasValue w0 (.immediate 1) 1 ∧ HasValue w0 (.immediate 0) 0 ∧
    HasValue w0 (.immediate 5) 5 ∧ ¬Valid w0 5 := ⟨rfl, fun _ h => (by cases h), rfl, rfl, rfl, by decide⟩
theorem witness_InstructionChangesOnlyItsDestinationCell :
    (∃ t, exec (.mul (.immediate 3) (.immediate 4) 2) w0 = .next t) ∧ (Instr.mul (.immediate 3) (.immediate 4) 2).dest ≠ some 3 :=
  ⟨⟨_, rfl⟩, by decide⟩
theorem witness_InstructionChangesOnlyItsRegisters : (∃ t, exec .halt w0 = .next t) ∧ (∃ t, exec (.output (.position 9)) w0 = .next t) :=
  ⟨⟨_, rfl⟩, ⟨_, rfl⟩⟩
theorem w0_reaches : ∃ t, Reaches w0 t ∧ t.pc = 4 := ⟨_, .step (.refl w0) rfl, rfl⟩
theorem witness_RunKeepsProgramInputAndExtent : ∃ t, Reaches w0 t ∧ t ≠ w0 := by
  obtain ⟨t, h, hp⟩ := w0_reaches
  exact ⟨t, h, fun e => by rw [e] at hp; cases hp⟩
theorem witness_StepReadsNeitherProgramStoreNorOutputNorCount : w0.cfg.maxSteps = none ∧ ∃ t, step w0 = .next t :=
  ⟨rfl, _, rfl⟩
theorem witness_StepIsTheSpecsBlock : w0.run = .running := rfl
theorem witness_StepIsEnabledExactlyInRunning : (∃ t, step w0 = .next t) ∧ ∃ t, step (running []) = .next t :=
  ⟨⟨_, rfl⟩, ⟨_, rfl⟩⟩
theorem witness_FaultEntryChangesNothingElse : ∃ t, step (running []) = .next t ∧ t.run = .faulted := ⟨_, rfl, rfl⟩
theorem witness_EveryCompletedInstructionIsCounted : (∃ t, step w0 = .next t ∧ t.run ≠ .faulted) ∧
    (∃ t, step (running []) = .next t ∧ t.run = .faulted) ∧
    ∃ t, Host.Core.run Sys2Proof.core 1 (running [99]) = .next t ∧ t.run = .halted ∧ (running [99]).run = .running :=
  ⟨⟨_, rfl, by decide⟩, ⟨_, rfl, rfl⟩, _, rfl, rfl, rfl⟩
theorem witness_WatchdogAllowsExactlyTheLimit : BelowLimit (running [99] 0 none (some 1)) ∧
    (running [99] 0 none (some 0)).run = .running ∧ (running [99] 0 none (some 0)).cfg.maxSteps = some 0 ∧
    0 ≤ (running [99] 0 none (some 0)).steps ∧
    ∃ t, Reaches (launched { maxSteps := some 1, maxProgramLen := none } [99] none none) t ∧ t.steps = 1 :=
  ⟨fun n h => (by cases h; decide), rfl, rfl, by decide, _, .step (.refl _) rfl, rfl⟩
theorem w0_inv : w0.Inv := ⟨rfl, fun _ h => (by cases h), ⟨rfl, rfl, rfl⟩⟩
theorem witness_FaultRecordTellsTheCause : (running [3, 0]).Inv ∧
    ∃ t, step (running [3, 0]) = .next t ∧ t.fcause = some .noInput :=
  ⟨⟨rfl, fun _ h => (by cases h), ⟨rfl, rfl, rfl⟩⟩, _, rfl, rfl⟩
theorem witness_OnlyAHaltWordLeadsIntoHalted : ∃ t, step (running [99]) = .next t ∧ t.run = .halted := ⟨_, rfl, rfl⟩
theorem witness_StepKeepsTheInvariant : w0.Inv ∧ ∃ t, step w0 = .next t := ⟨w0_inv, _, rfl⟩
theorem witness_LoadRefusesOnlyAProgramThatIsTooLong :
    (∃ m, ({ maxSteps := none, maxProgramLen := some 1 } : Config).maxProgramLen = some m ∧ m < [99, 0].length) ∧
    (∀ m, ({ maxSteps := none, maxProgramLen := some 2 } : Config).maxProgramLen = some m → [99, 0].length ≤ m) :=
  ⟨⟨1, rfl, by decide⟩, fun m h => by cases h; decide⟩
/-- A machine whose run has ended, holding a program of three cells. -/
def ended : State := { running [99, 0, 0] with run := .halted, steps := 1 }
theorem witness_LaunchResetsEverythingButTheProgram : ended.run ≠ .running ∧ 3 ≤ ended.P.length ∧ w0.run = .running := by decide
theorem witness_OverrideWritesCellsOneAndTwoOrFaults :
    3 ≤ [99, 0, 0].length ∧ [99].length < 2 ∧ [99, 0].length = 2 ∧ [99, 0].length < 3 := by decide
theorem witness_NothingSurvivesARunButTheProgram :
    ∃ t, Reaches (launched { maxSteps := none, maxProgramLen := none } [99, 0, 0] (some ⟨5, 6⟩) none) t ∧ t.run ≠ .running :=
  ⟨_, .step (.refl _) rfl, by decide⟩
theorem ended_inv : ended.Inv := ⟨rfl, fun _ h => (by cases h), ⟨rfl, rfl, rfl⟩, by decide, 99, rfl, by decide, by decide⟩
/-- A machine whose run has faulted: H7. -/
def faulted : State := faultEntry (running []) .outOfBounds 0
theorem witness_ResultsAreThoseOfTheTerminalState : ended.Inv ∧ ended.run = .halted ∧ ended.out = none ∧
    State.Inv { ended with out := some 4 } ∧ faulted.Inv ∧ faulted.run = .faulted ∧ w0.Inv ∧ w0.run = .running :=
  ⟨ended_inv, rfl, rfl, ended_inv, ⟨rfl, fun _ h => (by cases h), rfl, rfl, rfl⟩, rfl, w0_inv, rfl⟩
theorem witness_FinishedRunDoesNotDependOnTheFuel : 1 ≤ 2 ∧ (∃ t, runLoop 1 (running [99]) = .halted t) ∧
    ∃ t, runLoop 1 (running []) = .faulted t := ⟨by decide, ⟨_, rfl⟩, ⟨_, rfl⟩⟩
theorem witness_WatchdogEndsEveryRun : ({ maxSteps := some 3, maxProgramLen := none } : Config).maxSteps = some 3 := rfl

/-- F1: the pair (0, 0) is found, encoded as 0. -/
theorem witness_SearchReturnsTheFirstMatch_found :
    findInputs 2 { maxSteps := none, maxProgramLen := none } [1101, 0, 0, 0, 99] 0 = .found 0 := rfl
/-- Every run of the program halts at once with its own word as the result: no pair gives 0. -/
theorem witness_SearchReturnsTheFirstMatch_notFound :
    findInputs 1 { maxSteps := none, maxProgramLen := none } [99, 0, 0] 0 = .notFound := by
  have all : ∀ l, searchOver 1 { maxSteps := none, maxProgramLen := none } [99, 0, 0] 0 l = .notFound := by
    intro l
    induction l with
    | nil => rfl
    | cons x l ih => exact ih
  exact all _
/-- A program of two cells faults at the override of the first pair. -/
theorem witness_SearchReturnsTheFirstMatch_fault :
    findInputs 1 { maxSteps := none, maxProgramLen := none } [99, 0] 0 = .fault ⟨.outOfBounds, 2, 0⟩ := rfl
/-- The pair (0, 1) is the first whose run gives 1, after (0, 0), which gives 0. -/
theorem witness_SearchReturnsTheFirstMatch_firstPair :
    FirstPair 2 { maxSteps := none, maxProgramLen := none } [1101, 0, 0, 0, 99] 1 0 1 (.value 1) := by
  refine ⟨by decide, by decide, rfl, fun n v _ _ h => ⟨0, by decide, ?_⟩⟩
  obtain ⟨rfl, rfl⟩ : n = 0 ∧ v = 0 := by omega
  rfl
theorem witness_SearchReturnsTheFirstMatch_firstFault :
    FirstPair 1 { maxSteps := none, maxProgramLen := none } [99, 0] 0 0 0 (.fault ⟨.outOfBounds, 2, 0⟩) :=
  ⟨by decide, by decide, rfl, fun _ _ _ _ h => by omega⟩
theorem witness_SearchReturnsTheFirstMatch_allOther : ∀ noun verb : Nat, noun < 100 → verb < 100 →
    ∃ v, v ≠ 0 ∧ arithmeticRun 1 { maxSteps := none, maxProgramLen := none } [99, 0, 0] (some ⟨noun, verb⟩) = .value v :=
  fun _ _ _ _ => ⟨99, by decide, rfl⟩

end Sys2Proof.Tests
end

section
/-! Proofs about the host's load (spec/00_scope.md R5, spec/70_reset_and_hazards.md R140). -/

namespace Sys2Proof.Machine

theorem tooLong_eq_true_iff (cfg : Config) (p : Cells) :
    tooLong cfg p = true ↔ ∃ m, cfg.maxProgramLen = some m ∧ m < p.length := by
  unfold tooLong
  cases cfg.maxProgramLen with
  | none => simp
  | some m => simp

theorem tooLong_eq_false_iff (cfg : Config) (p : Cells) :
    tooLong cfg p = false ↔ ∀ m, cfg.maxProgramLen = some m → p.length ≤ m := by
  simp only [← Bool.not_eq_true, tooLong_eq_true_iff, not_exists, not_and, not_lt]

theorem load_of_tooLong {cfg : Config} {p : Cells} (h : tooLong cfg p = true) (ov : Option Override)
    (iv : Option Int) : load cfg p ov iv = .refused .programTooLong := if_pos h

theorem load_of_not_tooLong {cfg : Config} {p : Cells} (h : tooLong cfg p = false) (ov : Option Override)
    (iv : Option Int) : load cfg p ov iv = .next (launched cfg p ov iv) := if_neg (Bool.eq_false_iff.1 h)

/-- Settles O44: `tooLong` decides between the two answers, and each clause's premise is one of its values. -/
theorem loadRefusesOnlyAProgramThatIsTooLong : Obligations.LoadRefusesOnlyAProgramThatIsTooLong := by
  intro cfg p ov iv
  constructor
  · intro h
    exact load_of_tooLong ((tooLong_eq_true_iff cfg p).2 h) ov iv
  · intro h
    exact load_of_not_tooLong ((tooLong_eq_false_iff cfg p).2 h) ov iv

end Sys2Proof.Machine
end

section
/-! Proofs about the decoder: the instruction a word stands for, the operands its mode digits give, and why a
list of cells holds no instruction (spec/30_encoding.md R52 to R59, spec/40_execution_cycle.md R75). -/

namespace Sys2Proof

theorem decodeOpcode_eq_some_iff_code (raw : Int) (op : Opcode) :
    decodeOpcode raw = some op ↔ 0 ≤ raw ∧ raw % 100 = op.code := by
  rw [decodeOpcode_eq_some_iff]
  constructor
  · rintro ⟨h0, h⟩
    have := code_of_opcodeOf h
    omega
  · rintro ⟨h0, h⟩
    have hn : raw.toNat % 100 = op.code := by omega
    exact ⟨h0, hn ▸ opcodeOf_code op⟩

theorem exists_code_iff (n : Int) : (∃ op : Opcode, n = op.code) ↔
    n = 1 ∨ n = 2 ∨ n = 3 ∨ n = 4 ∨ n = 5 ∨ n = 6 ∨ n = 7 ∨ n = 8 ∨ n = 99 := by
  constructor
  · rintro ⟨op, rfl⟩
    cases op <;> decide
  · rintro (h | h | h | h | h | h | h | h | h)
    exacts [⟨.add, h⟩, ⟨.mul, h⟩, ⟨.input, h⟩, ⟨.output, h⟩, ⟨.jnz, h⟩, ⟨.jz, h⟩, ⟨.lt, h⟩, ⟨.eq, h⟩, ⟨.halt, h⟩]

theorem hasOpcode_iff (raw : Int) : Machine.HasOpcode raw ↔ ∃ op, decodeOpcode raw = some op := by
  simp only [decodeOpcode_eq_some_iff_code, exists_and_left, exists_code_iff, Machine.HasOpcode]

theorem decodeOpcode_eq_none_iff (raw : Int) : decodeOpcode raw = none ↔ ¬Machine.HasOpcode raw := by
  rw [hasOpcode_iff, Option.eq_none_iff_forall_ne_some, not_exists]

/-! ### The formats -/

variable {raw : Nat} {args : List Int} {i : Instr} {e : DecodeError}

theorem decodeRRW_ok {mk : Operand → Operand → Int → Instr} (h : decodeRRW mk raw args = .ok i) :
    ∃ w1 w2 w3, i = mk (operandOf (digit 2 raw) w1) (operandOf (digit 3 raw) w2) w3 := by
  unfold decodeRRW at h
  split at h
  · cases h; exact ⟨_, _, _, rfl⟩
  · cases h

theorem decodeRR_ok {mk : Operand → Operand → Instr} (h : decodeRR mk raw args = .ok i) :
    ∃ w1 w2, i = mk (operandOf (digit 2 raw) w1) (operandOf (digit 3 raw) w2) := by
  unfold decodeRR at h
  split at h
  · cases h; exact ⟨_, _, rfl⟩
  · cases h

theorem decodeR_ok {mk : Operand → Instr} (h : decodeR mk raw args = .ok i) :
    ∃ w, i = mk (operandOf (digit 2 raw) w) := by
  unfold decodeR at h
  split at h
  · cases h; exact ⟨_, rfl⟩
  · cases h

theorem decodeW_ok {mk : Int → Instr} (h : decodeW mk args = .ok i) : ∃ w, i = mk w := by
  unfold decodeW at h
  split at h
  · cases h; exact ⟨_, rfl⟩
  · cases h

theorem decodeArgs_opcode {op : Opcode} (h : decodeArgs op raw args = .ok i) : i.opcode = op := by
  cases op with
  | add | mul | lt | eq => obtain ⟨w1, w2, w3, rfl⟩ := decodeRRW_ok h; rfl
  | jnz | jz => obtain ⟨w1, w2, rfl⟩ := decodeRR_ok h; rfl
  | output => obtain ⟨w, rfl⟩ := decodeR_ok h; rfl
  | input => obtain ⟨w, rfl⟩ := decodeW_ok h; rfl
  | halt => cases h; rfl

/-- The read parameters of a decoded instruction, by its format (Table R55). -/
theorem decodeArgs_reads {op : Opcode} (h : decodeArgs op raw args = .ok i) :
    (∃ w1 w2, i.reads = [operandOf (digit 2 raw) w1, operandOf (digit 3 raw) w2] ∧
      op ≠ .input ∧ op ≠ .output ∧ op ≠ .halt) ∨
    (∃ w, i.reads = [operandOf (digit 2 raw) w] ∧ op = .output) ∨ i.reads = [] := by
  cases op with
  | add | mul | lt | eq =>
    obtain ⟨w1, w2, w3, rfl⟩ := decodeRRW_ok h
    exact .inl ⟨w1, w2, rfl, nofun, nofun, nofun⟩
  | jnz | jz =>
    obtain ⟨w1, w2, rfl⟩ := decodeRR_ok h
    exact .inl ⟨w1, w2, rfl, nofun, nofun, nofun⟩
  | output =>
    obtain ⟨w, rfl⟩ := decodeR_ok h
    exact .inr (.inl ⟨w, rfl, rfl⟩)
  | input =>
    obtain ⟨w, rfl⟩ := decodeW_ok h
    exact .inr (.inr rfl)
  | halt => cases h; exact .inr (.inr rfl)

theorem decodeArgs_error {op : Opcode} (h : decodeArgs op raw args = .error e) :
    e = .missingCell (args.length + 1) := by
  cases op with
  | add | mul | lt | eq =>
    simp only [decodeArgs, decodeRRW] at h
    split at h <;> cases h
    rfl
  | jnz | jz =>
    simp only [decodeArgs, decodeRR] at h
    split at h <;> cases h
    rfl
  | output =>
    simp only [decodeArgs, decodeR] at h
    split at h <;> cases h
    rfl
  | input =>
    simp only [decodeArgs, decodeW] at h
    split at h <;> cases h
    rfl
  | halt => cases h

/-! ### A whole list of cells -/

theorem decode_ok {cells : List Int} (h : decode cells = .ok i) :
    ∃ (w : Int) (args : List Int), cells = w :: args ∧ decodeOpcode w = some i.opcode ∧
      decodeArgs i.opcode w.toNat args = .ok i := by
  cases cells with
  | nil => cases h
  | cons w args =>
    simp only [decode] at h
    split at h
    · cases h
    · rename_i op hop
      have hi := decodeArgs_opcode h
      subst hi
      exact ⟨w, args, rfl, hop, h⟩

theorem decode_error {cells : List Int} (h : decode cells = .error e) :
    (∃ (w : Int) (args : List Int), cells = w :: args ∧ e = .unknownOpcode w ∧ decodeOpcode w = none) ∨
      e = .missingCell cells.length := by
  cases cells with
  | nil => cases h; exact .inr rfl
  | cons w args =>
    simp only [decode] at h
    split at h
    · rename_i hop
      cases h
      exact .inl ⟨w, args, rfl, rfl, hop⟩
    · exact .inr (decodeArgs_error h)

/-! ### Illegal mode digits -/

theorem two_le_of_operandOf_illegal {m : Nat} {w : Int} (h : (operandOf m w).legal = false) : 2 ≤ m := by
  match m with
  | 0 => cases h
  | 1 => cases h
  | m + 2 => omega

/-- An operand of a decoded instruction is illegal only where the word has a used mode digit of 2 to 9 (R59). -/
theorem hasUnknownMode_of_decodeArgs {w : Int} (hop : decodeOpcode w = some i.opcode)
    (h : decodeArgs i.opcode w.toNat args = .ok i) {o : Operand} (ho : o ∈ i.reads) (hl : o.legal = false) :
    Machine.HasUnknownMode w := by
  obtain ⟨h0, hc⟩ := (decodeOpcode_eq_some_iff_code w i.opcode).mp hop
  have h2 : (digit 2 w.toNat : Int) = w / 100 % 10 := by unfold digit; omega
  have h3 : (digit 3 w.toNat : Int) = w / 1000 % 10 := by unfold digit; omega
  unfold Machine.HasUnknownMode
  rcases decodeArgs_reads h with ⟨w1, w2, hr, hin, hout, hhalt⟩ | ⟨w1, hr, hout⟩ | hr
  · have hm : 2 ≤ digit 2 w.toNat ∨ 2 ≤ digit 3 w.toNat := by
      rw [hr, List.mem_pair] at ho
      rcases ho with rfl | rfl
      · exact .inl (two_le_of_operandOf_illegal hl)
      · exact .inr (two_le_of_operandOf_illegal hl)
    have hc' : w % 100 = 1 ∨ w % 100 = 2 ∨ w % 100 = 5 ∨ w % 100 = 6 ∨ w % 100 = 7 ∨ w % 100 = 8 := by
      rw [hc]
      cases hi : i.opcode <;> simp_all [Opcode.code]
    omega
  · rw [hr, List.mem_singleton] at ho
    subst ho
    have hm := two_le_of_operandOf_illegal hl
    rw [hout] at hc
    simp only [Opcode.code] at hc
    omega
  · rw [hr] at ho
    cases ho

end Sys2Proof
end

section
/-! Proofs about what an instruction and a step can do, each said once (spec/40_execution_cycle.md R70 to R81,
spec/60_exceptions.md R121 to R126). -/

namespace Sys2Proof.Machine

variable {s t u : State} {i : Instr} {f : Trap}

theorem memWrite_of_valid {a : Int} (h : Valid s a) (v : Int) : memWrite a v s = .ok (setCell a v s) :=
  (memWrite_eq_ok_iff a v s _).mpr ⟨h, rfl⟩

theorem memWrite_of_not_valid {a : Int} (h : ¬Valid s a) (v : Int) :
    memWrite a v s = .error ⟨.outOfBounds, a⟩ :=
  (memWrite_eq_error_iff a v s _).mpr ⟨h, rfl⟩

/-- Everything an instruction that completes can do, before it is counted: store a result and advance, capture
an output and advance, assign `pc`, or halt. -/
theorem body_ok_cases (h : body i s = .ok u) :
    (∃ d w, i.dest = some d ∧ Valid s d ∧ StoredValue s i w ∧ u = advance i.length (setCell d w s)) ∨
    (∃ a x, i = .output a ∧ HasValue s a x ∧ u = advance 2 (capture x s)) ∨
    ((i.opcode = .jnz ∨ i.opcode = .jz) ∧ ∃ y, u = jumpTo y s) ∨
    (i = .halt ∧ u = enterHalted s) := by
  cases i with
  | add a b d | mul a b d =>
    simp only [body, storeResult_eq_ok_iff] at h
    obtain ⟨x, y, hx, hy, hd, rfl⟩ := h
    exact .inl ⟨d, _, rfl, hd, ⟨x, y, hx, hy, rfl⟩, rfl⟩
  | lt a b d | eq a b d =>
    simp only [body, storeResult_eq_ok_iff] at h
    obtain ⟨x, y, hx, hy, hd, rfl⟩ := h
    exact .inl ⟨d, _, rfl, hd, ⟨x, y, hx, hy, by simp [truthValue]⟩, rfl⟩
  | input d =>
    simp only [body] at h
    split at h
    · exact absurd h (raiseWithWord_ne_ok _ s u)
    · rename_i v hv
      by_cases hd : Valid s d
      · rw [memWrite_of_valid hd] at h
        cases h
        exact .inl ⟨d, v, rfl, hd, hv, rfl⟩
      · rw [memWrite_of_not_valid hd] at h
        cases h
  | output a =>
    simp only [body] at h
    cases hx : resolve a s with
    | error f => rw [hx] at h; cases h
    | ok x =>
      rw [hx] at h
      cases h
      exact .inr (.inl ⟨a, x, rfl, (resolve_eq_ok_iff a s x).mp hx, rfl⟩)
  | jnz a b =>
    simp only [body, jumpWhen_eq_ok_iff] at h
    obtain ⟨x, y, -, -, rfl⟩ := h
    exact .inr (.inr (.inl ⟨.inl rfl, if nonZero x then y else s.pc + 3, by split <;> rfl⟩))
  | jz a b =>
    simp only [body, jumpWhen_eq_ok_iff] at h
    obtain ⟨x, y, -, -, rfl⟩ := h
    exact .inr (.inr (.inl ⟨.inr rfl, if !nonZero x then y else s.pc + 3, by split <;> rfl⟩))
  | halt =>
    cases h
    exact .inr (.inr (.inr ⟨rfl, rfl⟩))

theorem resolveTwo_error {raw : Int} (hw : cellAt s.M s.pc = some raw) {a b : Operand}
    (h : resolveTwo a b s = .error f) : ∃ o ∈ [a, b], OperandFault s raw o f := by
  rcases (resolveTwo_eq_error_iff a b s f).mp h with ha | ⟨-, hb⟩
  · exact ⟨a, by simp, (resolve_eq_error_iff hw a f).mp ha⟩
  · exact ⟨b, by simp, (resolve_eq_error_iff hw b f).mp hb⟩

/-- Every fault an instruction can raise: of a read parameter, of its destination, or for want of an input. -/
theorem body_error_cases {raw : Int} (hw : cellAt s.M s.pc = some raw) (h : body i s = .error f) :
    (∃ o ∈ i.reads, OperandFault s raw o f) ∨
    (∃ d, i.dest = some d ∧ ¬Valid s d ∧ f = ⟨.outOfBounds, d⟩) ∨
    (i.opcode = .input ∧ s.inp = none ∧ f = ⟨.noInput, raw⟩) := by
  cases i with
  | add a b d | mul a b d | lt a b d | eq a b d =>
    simp only [body, storeResult_eq_error_iff] at h
    rcases h with hr | ⟨-, hd, hf⟩
    · exact .inl (resolveTwo_error hw hr)
    · exact .inr (.inl ⟨d, rfl, hd, hf⟩)
  | input d =>
    simp only [body] at h
    split at h
    · rename_i hv
      rw [raiseWithWord_of_word hw] at h
      cases h
      exact .inr (.inr ⟨rfl, hv, rfl⟩)
    · rename_i v hv
      by_cases hd : Valid s d
      · rw [memWrite_of_valid hd] at h
        cases h
      · rw [memWrite_of_not_valid hd] at h
        cases h
        exact .inr (.inl ⟨d, rfl, hd, rfl⟩)
  | output a =>
    simp only [body] at h
    cases hx : resolve a s with
    | ok x => rw [hx] at h; cases h
    | error g =>
      rw [hx] at h
      cases h
      exact .inl ⟨a, List.mem_singleton_self a, (resolve_eq_error_iff hw a f).mp hx⟩
  | jnz a b | jz a b =>
    simp only [body, jumpWhen_eq_error_iff] at h
    exact .inl (resolveTwo_error hw h)
  | halt => cases h

/-- `exec` ends by counting what the instruction did, or by taking the fault it raised. -/
theorem exec_cases (h : exec i s = .next t) :
    (∃ u, body i s = .ok u ∧ t = countStep u) ∨ (∃ f, body i s = .error f ∧ t = takeFault f s) := by
  rw [exec_eq_conclude_body] at h
  exact (conclude_eq_next_iff s t _).mp h

theorem exec_of_body_ok (h : body i s = .ok u) : exec i s = .next (countStep u) := by
  rw [exec_eq_conclude_body, h]
  rfl

theorem exec_of_body_error (h : body i s = .error f) : exec i s = .next (takeFault f s) := by
  rw [exec_eq_conclude_body, h]
  rfl

/-- A step raises this fault: at the watchdog check, at the fetch, or in the instruction itself. -/
def Raises (s : State) (f : Trap) : Prop :=
  nextInstr s = .error f ∨ ∃ i, nextInstr s = .ok i ∧ body i s = .error f

/-- Everything a step can do: take the fault it raises, or complete the instruction it has fetched. -/
theorem step_raises_or_completes (h : step s = .next t) :
    s.run = .running ∧
      ((∃ f, Raises s f ∧ t = takeFault f s) ∨
        ∃ i u, nextInstr s = .ok i ∧ body i s = .ok u ∧ t = countStep u) := by
  obtain ⟨hr, ⟨f, hf, rfl⟩ | ⟨i, hi, hx⟩⟩ := step_cases h
  · exact ⟨hr, .inl ⟨f, .inl hf, rfl⟩⟩
  · refine ⟨hr, ?_⟩
    rcases exec_cases hx with ⟨u, hu, rfl⟩ | ⟨f, hf, rfl⟩
    · exact .inr ⟨i, u, hi, hu, rfl⟩
    · exact .inl ⟨f, .inr ⟨i, hi, hf⟩, rfl⟩

theorem step_of_trap (hr : s.run = .running) (h : nextInstr s = .error f) : step s = .next (takeFault f s) := by
  simp only [step, hr, h]

theorem step_of_instr (hr : s.run = .running) (h : nextInstr s = .ok i) : step s = exec i s := by
  simp only [step, hr, h]

theorem cellAt_of_cellsFrom_cons {a raw : Int} {args : List Int} (h : cellsFrom s.M a = raw :: args) :
    cellAt s.M a = some raw := by
  have hv : Valid s a := by
    by_contra hn
    rw [cellsFrom_eq_nil_of_invalid hn] at h
    cases h
  have h0 := cellsFrom_getElem? s.M hv.1 0
  simpa [h] using h0.symm

/-- The word a decoded instruction was fetched from is the cell at `pc` (R73). -/
theorem fetch_ok_word (h : fetch s = .ok i) :
    ∃ (raw : Int) (args : List Int), cellAt s.M s.pc = some raw ∧ decodeOpcode raw = some i.opcode ∧
      decodeArgs i.opcode raw.toNat args = .ok i := by
  obtain ⟨raw, args, hc, hop, ha⟩ := decode_ok ((fetch_eq_ok_iff s i).mp h)
  exact ⟨raw, args, cellAt_of_cellsFrom_cons hc, hop, ha⟩

/-- The first address after the cells that can be fetched from an address is not valid. -/
theorem not_valid_after_cellsFrom (s : State) (a : Int) : ¬Valid s (a + (cellsFrom s.M a).length) := by
  by_cases ha : Valid s a
  · rw [cellsFrom_length ha]
    unfold Valid
    omega
  · rw [cellsFrom_eq_nil_of_invalid ha]
    simpa using ha

end Sys2Proof.Machine
end

section
/-! Proofs about the fault record (spec/10_state.md R15, spec/60_exceptions.md Table R121). -/

namespace Sys2Proof.Machine

variable {s t u : State} {i : Instr} {f : Trap}

/-- What Table R121 says a raised fault means of the state it is raised in. -/
def TrapTrue (s : State) (f : Trap) : Prop :=
  match f.cause with
  | .unknownOpcode => cellAt s.M s.pc = some f.info ∧ ¬HasOpcode f.info
  | .outOfBounds => ¬Valid s f.info
  | .stepLimitExceeded => ∃ n, s.cfg.maxSteps = some n ∧ n ≤ s.steps ∧ f.info = s.steps
  | .unknownMode => cellAt s.M s.pc = some f.info ∧ HasOpcode f.info ∧ HasUnknownMode f.info
  | .noInput => s.inp = none ∧ cellAt s.M s.pc = some f.info ∧ 0 ≤ f.info ∧ f.info % 100 = 3

theorem watchdog_trapTrue (h : watchdog s = .error f) : TrapTrue s f := by
  obtain ⟨n, hn, hle, rfl⟩ := (watchdog_eq_error_iff s f).mp h
  exact ⟨n, hn, hle, rfl⟩

theorem fetch_trapTrue (h : fetch s = .error f) : TrapTrue s f := by
  obtain ⟨e, he, rfl⟩ := (fetch_eq_error_iff s f).mp h
  rcases decode_error he with ⟨raw, args, hc, rfl, hop⟩ | rfl
  · exact ⟨cellAt_of_cellsFrom_cons hc, (decodeOpcode_eq_none_iff raw).mp hop⟩
  · exact not_valid_after_cellsFrom s s.pc

theorem operandFault_cases {raw : Int} {o : Operand} (h : OperandFault s raw o f) :
    (∃ a, ¬Valid s a ∧ f = ⟨.outOfBounds, a⟩) ∨ (o.legal = false ∧ f = ⟨.unknownMode, raw⟩) := by
  cases o with
  | position a => exact .inl ⟨a, h⟩
  | immediate v => exact h.elim
  | unknownMode d w => exact .inr ⟨rfl, h⟩

theorem body_trapTrue (hi : fetch s = .ok i) (h : body i s = .error f) : TrapTrue s f := by
  obtain ⟨raw, args, hw, hop, ha⟩ := fetch_ok_word hi
  rcases body_error_cases hw h with ⟨o, ho, hf⟩ | ⟨d, -, hd, rfl⟩ | ⟨hin, hv, rfl⟩
  · rcases operandFault_cases hf with ⟨a, hna, rfl⟩ | ⟨hl, rfl⟩
    · exact hna
    · exact ⟨hw, (hasOpcode_iff raw).mpr ⟨_, hop⟩, hasUnknownMode_of_decodeArgs hop ha ho hl⟩
  · exact hd
  · rw [hin] at hop
    exact ⟨hv, hw, (decodeOpcode_eq_some_iff_code raw .input).mp hop⟩

theorem raises_trapTrue (h : Raises s f) : TrapTrue s f := by
  rcases h with hn | ⟨i, hi, hb⟩
  · rcases (nextInstr_eq_error_iff s f).mp hn with hw | ⟨-, hf⟩
    · exact watchdog_trapTrue hw
    · exact fetch_trapTrue hf
  · exact body_trapTrue ((nextInstr_eq_ok_iff s i).mp hi).2 hb

/-- An instruction that completes leaves the fault record as it was. -/
theorem body_ok_record (h : body i s = .ok u) : u.fcause = s.fcause ∧ u.finfo = s.finfo ∧ u.fpc = s.fpc := by
  rcases body_ok_cases h with ⟨d, w, -, -, -, rfl⟩ | ⟨a, x, -, -, rfl⟩ | ⟨-, y, rfl⟩ | ⟨-, rfl⟩ <;>
    exact ⟨rfl, rfl, rfl⟩

/-- In `Running` no instruction that completes enters `Faulted`. -/
theorem body_ok_run_ne_faulted (hr : s.run = .running) (h : body i s = .ok u) : u.run ≠ .faulted := by
  rcases body_ok_cases h with ⟨d, w, -, -, -, rfl⟩ | ⟨a, x, -, -, rfl⟩ | ⟨-, y, rfl⟩ | ⟨-, rfl⟩ <;> simp [hr]

theorem noRecord_of_inv_running (h : s.Inv) (hr : s.run = .running) : NoRecord s := by
  obtain ⟨-, -, hs⟩ := h
  simpa only [RunStateInv, hr] using hs

/-- Settles O38: a step takes a fault that `TrapTrue` holds of, or completes and leaves the record of a running
state, which the invariant says is empty. -/
theorem faultRecordTellsTheCause : Obligations.FaultRecordTellsTheCause := by
  intro s t hinv h
  obtain ⟨hr, ⟨f, hf, rfl⟩ | ⟨i, u, -, hu, rfl⟩⟩ := step_raises_or_completes h
  · obtain ⟨-, hlim, -⟩ := hinv
    have ht := raises_trapTrue hf
    obtain ⟨c, v⟩ := f
    cases c with
    | unknownOpcode =>
      obtain ⟨hw, hno⟩ := ht
      exact ⟨rfl, v, hw, rfl, hno⟩
    | outOfBounds => exact ⟨rfl, v, rfl, ht⟩
    | stepLimitExceeded =>
      obtain ⟨n, hn, hle, rfl⟩ := ht
      exact ⟨rfl, s.steps, (hlim n hn).antisymm hle ▸ hn, rfl, rfl⟩
    | unknownMode =>
      obtain ⟨hw, hop, hm⟩ := ht
      exact ⟨rfl, v, hw, rfl, hop, hm⟩
    | noInput =>
      obtain ⟨hin, hw, h0, h3⟩ := ht
      exact ⟨rfl, hin, v, hw, rfl, h0, h3⟩
  · obtain ⟨hc, hi, hp⟩ := noRecord_of_inv_running hinv hr
    obtain ⟨hc', hi', hp'⟩ := body_ok_record hu
    have hnone : (countStep u).fcause = none := hc'.trans hc
    rw [hnone]
    exact ⟨body_ok_run_ne_faulted (u := u) hr hu, hi'.trans hi, hp'.trans hp⟩

end Sys2Proof.Machine
end

section
/-! Proofs about what an instruction, a step and a run leave unchanged, and that every step keeps the machine's
invariant (spec/10_state.md R14 to R20, R31, spec/60_exceptions.md R124, R126). -/

namespace Sys2Proof.Machine

variable {s t u : State} {i : Instr} {f : Trap}

/-- No instruction that completes changes the program store, the input register, the configuration or the extent
of memory; the count is left to `countStep`. -/
theorem body_ok_frame (h : body i s = .ok u) :
    u.P = s.P ∧ u.inp = s.inp ∧ u.cfg = s.cfg ∧ u.M.length = s.M.length ∧ u.steps = s.steps := by
  rcases body_ok_cases h with ⟨d, w, -, -, -, rfl⟩ | ⟨a, x, -, -, rfl⟩ | ⟨-, y, rfl⟩ | ⟨-, rfl⟩ <;> simp

theorem body_ok_out (h : body i s = .ok u) (hi : i.opcode ≠ .output) : u.out = s.out := by
  rcases body_ok_cases h with ⟨d, w, -, -, -, rfl⟩ | ⟨a, x, rfl, -, rfl⟩ | ⟨-, y, rfl⟩ | ⟨-, rfl⟩
  · rfl
  · exact absurd rfl hi
  · rfl
  · rfl

theorem body_ok_run (h : body i s = .ok u) (hi : i.opcode ≠ .halt) : u.run = s.run := by
  rcases body_ok_cases h with ⟨d, w, -, -, -, rfl⟩ | ⟨a, x, -, -, rfl⟩ | ⟨-, y, rfl⟩ | ⟨rfl, rfl⟩
  · rfl
  · rfl
  · rfl
  · exact absurd rfl hi

theorem body_halt_of_opcode (h : body i s = .ok u) (hi : i.opcode = .halt) : u = enterHalted s := by
  cases i with
  | halt => cases h; rfl
  | _ => cases hi

theorem step_frame (h : step s = .next t) :
    t.P = s.P ∧ t.inp = s.inp ∧ t.cfg = s.cfg ∧ t.M.length = s.M.length := by
  obtain ⟨-, ⟨f, -, rfl⟩ | ⟨i, u, -, hu, rfl⟩⟩ := step_raises_or_completes h
  · simp
  · obtain ⟨hP, hinp, hcfg, hM, -⟩ := body_ok_frame hu
    exact ⟨hP, hinp, hcfg, hM⟩

theorem takeFault_inv (f : Trap) (h : s.Inv) : (takeFault f s).Inv := by
  obtain ⟨hwf, hlim, -⟩ := h
  exact ⟨hwf, hlim, rfl, rfl, rfl⟩

/-- The run-state register still tells the truth after an instruction that completes: HALT leaves the HALT word
at `pc`, every other instruction leaves `Running` and the empty record. -/
theorem body_ok_runStateInv (hr : s.run = .running) (hn : NoRecord s) (hi : fetch s = .ok i)
    (hu : body i s = .ok u) : RunStateInv (countStep u) := by
  obtain ⟨hc, hinfo, hpc⟩ := body_ok_record hu
  have hn' : NoRecord (countStep u) := by simpa only [NoRecord, countStep_fcause, countStep_finfo,
    countStep_fpc, hc, hinfo, hpc] using hn
  by_cases hh : i.opcode = .halt
  · obtain ⟨raw, -, hw, hop, -⟩ := fetch_ok_word hi
    rw [hh] at hop
    obtain rfl := body_halt_of_opcode hu hh
    exact ⟨hn', Nat.succ_pos _, raw, hw, (decodeOpcode_eq_some_iff_code raw .halt).mp hop⟩
  · have hr' : (countStep u).run = .running := (body_ok_run hu hh).trans hr
    simpa only [RunStateInv, hr'] using hn'

/-- Settles O40: a fault taken keeps the invariant, and an instruction completes only below the limit. -/
theorem stepKeepsTheInvariant : Obligations.StepKeepsTheInvariant := by
  intro s t hinv h
  obtain ⟨hr, ⟨f, -, rfl⟩ | ⟨i, u, hi, hu, rfl⟩⟩ := step_raises_or_completes h
  · exact takeFault_inv f hinv
  · obtain ⟨hbelow, hfetch⟩ := (nextInstr_eq_ok_iff s i).mp hi
    have hn := noRecord_of_inv_running hinv hr
    obtain ⟨hwf, -, -⟩ := hinv
    obtain ⟨hP, -, hcfg, hM, hsteps⟩ := body_ok_frame hu
    refine ⟨?_, ?_, body_ok_runStateInv hr hn hfetch hu⟩
    · simpa only [Memory.wf, countStep_M, countStep_P, hM, hP] using hwf
    · intro n hmax
      rw [countStep_cfg, hcfg] at hmax
      rw [countStep_steps, hsteps]
      exact hbelow n hmax

/-- Settles O30: each clause is one fact about an instruction that completes. -/
theorem instructionChangesOnlyItsRegisters : Obligations.InstructionChangesOnlyItsRegisters := by
  intro i s t h
  rcases exec_cases h with ⟨u, hu, rfl⟩ | ⟨f, -, rfl⟩
  · obtain ⟨hP, hinp, hcfg, -, hsteps⟩ := body_ok_frame hu
    obtain ⟨hc, hinfo, hpc⟩ := body_ok_record hu
    have hout := body_ok_out hu
    have hrun := body_ok_run hu
    exact .inl ⟨hP, hcfg, hinp, congrArg (· + 1) hsteps, hc, hinfo, hpc, hout, hrun⟩
  · exact .inr ⟨f.cause, f.info, rfl⟩

/-- Settles O31, by induction on the steps of the run. -/
theorem runKeepsProgramInputAndExtent : Obligations.RunKeepsProgramInputAndExtent := by
  intro s t h
  induction h with
  | refl => exact ⟨rfl, rfl, rfl, rfl⟩
  | step _ hstep ih =>
    obtain ⟨hP, hinp, hcfg, hM⟩ := ih
    obtain ⟨hP', hinp', hcfg', hM'⟩ := step_frame hstep
    exact ⟨hP'.trans hP, hinp'.trans hinp, hcfg'.trans hcfg, hM'.trans hM⟩

end Sys2Proof.Machine
end

section
/-! Proofs that no instruction reads the program store, the output register or, without a limit, the count
(spec/10_state.md R17, R18, R20, R23): each operation commutes with putting other values there. -/

namespace Sys2Proof.Machine

/-- The state with other contents of the program store, the output register and the count. -/
def withUnread (p : Cells) (o : Option Int) (k : Nat) (s : State) : State :=
  { s with P := p, out := o, steps := k }

variable (p : Cells) (o : Option Int) (k : Nat) (s : State)

theorem raiseWithWord_withUnread {α : Type} (c : Cause) :
    raiseWithWord (α := α) c (withUnread p o k s) = raiseWithWord c s := rfl

theorem resolve_withUnread (a : Operand) : resolve a (withUnread p o k s) = resolve a s := rfl

theorem resolveTwo_withUnread (a b : Operand) : resolveTwo a b (withUnread p o k s) = resolveTwo a b s := rfl

theorem memWrite_withUnread (a v : Int) :
    memWrite a v (withUnread p o k s) = (memWrite a v s).map (withUnread p o k) := by
  by_cases h : Valid s a
  · rw [memWrite_of_valid h, memWrite_of_valid (s := withUnread p o k s) h]
    rfl
  · rw [memWrite_of_not_valid h, memWrite_of_not_valid (s := withUnread p o k s) h]
    rfl

theorem storeResult_withUnread (g : Int → Int → Int) (a b : Operand) (d : Int) :
    storeResult g a b d (withUnread p o k s) = (storeResult g a b d s).map (withUnread p o k) := by
  unfold storeResult
  rw [resolveTwo_withUnread]
  cases resolveTwo a b s with
  | error f => rfl
  | ok xy =>
    simp only [bind, Except.bind, memWrite_withUnread]
    cases memWrite d (g xy.1 xy.2) s <;> rfl

theorem jumpWhen_withUnread (q : Int → Bool) (a b : Operand) :
    jumpWhen q a b (withUnread p o k s) = (jumpWhen q a b s).map (withUnread p o k) := by
  unfold jumpWhen
  rw [resolveTwo_withUnread]
  cases resolveTwo a b s with
  | error f => rfl
  | ok xy =>
    simp only [bind, Except.bind, pure, Except.pure, Except.map]
    split <;> rfl

/-- What an instruction does in the state with other contents: the same, `out` being its own where it is OUT. -/
theorem body_withUnread (i : Instr) : ∃ w : State → Option Int,
    body i (withUnread p o k s) = (body i s).map fun u => withUnread p (w u) k u := by
  cases i with
  | add a b d | mul a b d | lt a b d | eq a b d =>
    exact ⟨fun _ => o, by simp only [body, storeResult_withUnread]⟩
  | jnz a b | jz a b => exact ⟨fun _ => o, by simp only [body, jumpWhen_withUnread]⟩
  | input d =>
    refine ⟨fun _ => o, ?_⟩
    have hinp : (withUnread p o k s).inp = s.inp := rfl
    simp only [body, hinp, memWrite_withUnread, raiseWithWord_withUnread]
    cases s.inp with
    | none =>
      simp only [raiseWithWord]
      split <;> rfl
    | some v => cases hw : memWrite d v s <;> simp only [hw] <;> rfl
  | output a =>
    refine ⟨State.out, ?_⟩
    simp only [body, resolve_withUnread]
    cases resolve a s <;> rfl
  | halt => exact ⟨fun _ => o, rfl⟩

variable {s}

theorem nextInstr_of_no_limit (h : s.cfg.maxSteps = none) : nextInstr s = fetch s := by
  have hw : watchdog s = .ok () := by simp only [watchdog, h]
  simp only [nextInstr, hw]
  rfl

theorem nextInstr_withUnread (h : s.cfg.maxSteps = none) : nextInstr (withUnread p o k s) = nextInstr s := by
  rw [nextInstr_of_no_limit h, nextInstr_of_no_limit (s := withUnread p o k s) h]
  rfl

/-- Settles O32: the same instruction is fetched, and it does the same. -/
theorem stepReadsNeitherProgramStoreNorOutputNorCount :
    Obligations.StepReadsNeitherProgramStoreNorOutputNorCount := by
  intro s t p o k hlim h
  change ∃ o' k', step (withUnread p o k s) = .next (withUnread p o' k' t)
  have hnext := nextInstr_withUnread p o k hlim
  have hexec : ∀ i, s.run = .running → nextInstr s = .ok i →
      step (withUnread p o k s) = exec i (withUnread p o k s) := fun i hr hi =>
    step_of_instr (s := withUnread p o k s) hr (hnext.trans hi)
  obtain ⟨hr, ⟨f, hf | ⟨i, hi, hb⟩, rfl⟩ | ⟨i, u, hi, hb, rfl⟩⟩ := step_raises_or_completes h
  · exact ⟨o, k, step_of_trap (s := withUnread p o k s) hr (hnext.trans hf)⟩
  · obtain ⟨w, hw⟩ := body_withUnread p o k s i
    rw [hb] at hw
    exact ⟨o, k, (hexec i hr hi).trans (exec_of_body_error hw)⟩
  · obtain ⟨w, hw⟩ := body_withUnread p o k s i
    rw [hb] at hw
    exact ⟨w u, k + 1, (hexec i hr hi).trans (exec_of_body_ok hw)⟩

end Sys2Proof.Machine
end

section
/-! Proofs about the launch (spec/10_state.md R24, R25, spec/70_reset_and_hazards.md R141, R143, R153). -/

namespace Sys2Proof.Machine

variable {s : State}

theorem launch_of_running (h : s.run = .running) (ov : Option Override) (iv : Option Int) :
    launch ov iv s = .refused .launchWhileRunning := by
  simp only [launch, h]

theorem launch_of_ended (h : s.run ≠ .running) (ov : Option Override) (iv : Option Int) :
    launch ov iv s = .next (launched s.cfg s.P ov iv) := by
  unfold launch
  split
  · contradiction
  · rfl
  · rfl

theorem launchWrite_of_valid {a : Int} (h : Valid s a) (v : Int) : launchWrite a v s = setCell a v s := by
  simp only [launchWrite, memWrite_of_valid h]

theorem launchWrite_of_not_valid {a : Int} (h : ¬Valid s a) (v : Int) :
    launchWrite a v s = takeFault ⟨.outOfBounds, a⟩ s := by
  simp only [launchWrite, memWrite_of_not_valid h]

theorem applyOverride_of_valid (h : Valid s 1) (ov : Override) :
    applyOverride ov s = launchWrite 2 ov.verb (setCell 1 ov.noun s) := by
  simp only [applyOverride, memWrite_of_valid h]

theorem applyOverride_of_not_valid (h : ¬Valid s 1) (ov : Override) :
    applyOverride ov s = takeFault ⟨.outOfBounds, 1⟩ s := by
  simp only [applyOverride, memWrite_of_not_valid h]

/-! ### The program and the configuration -/

theorem launchWrite_keeps_program (a v : Int) (s : State) :
    (launchWrite a v s).P = s.P ∧ (launchWrite a v s).cfg = s.cfg := by
  by_cases h : Valid s a
  · rw [launchWrite_of_valid h]
    exact ⟨rfl, rfl⟩
  · rw [launchWrite_of_not_valid h]
    exact ⟨rfl, rfl⟩

theorem applyOverride_keeps_program (ov : Override) (s : State) :
    (applyOverride ov s).P = s.P ∧ (applyOverride ov s).cfg = s.cfg := by
  by_cases h : Valid s 1
  · rw [applyOverride_of_valid h]
    exact launchWrite_keeps_program 2 ov.verb (setCell 1 ov.noun s)
  · rw [applyOverride_of_not_valid h]
    exact ⟨rfl, rfl⟩

theorem launched_program (cfg : Config) (p : Cells) (ov : Option Override) (iv : Option Int) :
    (launched cfg p ov iv).P = p ∧ (launched cfg p ov iv).cfg = cfg := by
  cases ov with
  | none => exact ⟨rfl, rfl⟩
  | some o => exact applyOverride_keeps_program o (freshRun cfg p iv)

/-! ### The invariant -/

theorem setCell_inv (a v : Int) (h : s.Inv) (hr : s.run = .running) : (setCell a v s).Inv := by
  have hn := noRecord_of_inv_running h hr
  obtain ⟨hwf, hlim, -⟩ := h
  refine ⟨by simpa only [Memory.wf, setCell_M, setCell_P, List.length_set] using hwf, hlim, ?_⟩
  simpa only [RunStateInv, NoRecord, setCell_run, setCell_fcause, setCell_finfo, setCell_fpc, hr] using hn

theorem launchWrite_inv (a v : Int) (h : s.Inv) (hr : s.run = .running) : (launchWrite a v s).Inv := by
  by_cases hv : Valid s a
  · rw [launchWrite_of_valid hv]
    exact setCell_inv a v h hr
  · rw [launchWrite_of_not_valid hv]
    exact takeFault_inv _ h

theorem applyOverride_inv (ov : Override) (h : s.Inv) (hr : s.run = .running) : (applyOverride ov s).Inv := by
  by_cases hv : Valid s 1
  · rw [applyOverride_of_valid hv]
    exact launchWrite_inv 2 ov.verb (setCell_inv 1 ov.noun h hr) hr
  · rw [applyOverride_of_not_valid hv]
    exact takeFault_inv _ h

theorem freshRun_inv (cfg : Config) (p : Cells) (iv : Option Int) : (freshRun cfg p iv).Inv :=
  ⟨rfl, fun n _ => Nat.zero_le n, rfl, rfl, rfl⟩

/-- Settles O42: the fresh run meets the invariant, and each override write keeps it, one that faults too. -/
theorem launchMeetsTheInvariant : Obligations.LaunchMeetsTheInvariant := by
  intro cfg p ov iv
  cases ov with
  | none => exact freshRun_inv cfg p iv
  | some o => exact applyOverride_inv o (freshRun_inv cfg p iv) rfl

/-- Settles O41: the reset state is a launch. -/
theorem resetMeetsTheInvariant : Obligations.ResetMeetsTheInvariant :=
  launchMeetsTheInvariant { maxSteps := none, maxProgramLen := none } [] none none

/-- Settles O43: without a length limit the empty program is loaded. -/
theorem resetIsTheLaunchOfTheEmptyProgram : Obligations.ResetIsTheLaunchOfTheEmptyProgram :=
  ⟨load_of_not_tooLong rfl none none, rfl, rfl, rfl, rfl, rfl, ⟨rfl, rfl, rfl⟩, rfl⟩

/-! ### What a launch leaves -/

/-- With cells 1 and 2 there, the override writes both and nothing else (R143). -/
theorem applyOverride_of_three_le (h : 3 ≤ s.M.length) (ov : Override) :
    applyOverride ov s = setCell 2 ov.verb (setCell 1 ov.noun s) := by
  have h1 : Valid s 1 := by unfold Valid; omega
  have h2 : Valid (setCell 1 ov.noun s) 2 := by
    simp only [Valid, setCell_M, List.length_set]
    omega
  rw [applyOverride_of_valid h1, launchWrite_of_valid h2]

/-- Settles O45: each clause is the launch's equation for its case. -/
theorem launchResetsEverythingButTheProgram : Obligations.LaunchResetsEverythingButTheProgram := by
  intro s iv
  refine ⟨fun h => launch_of_ended h none iv, fun noun verb h hlen => ?_, fun ov h => launch_of_running h ov iv⟩
  rw [launch_of_ended h]
  exact congrArg Host.Outcome.next (applyOverride_of_three_le (s := freshRun s.cfg s.P iv) hlen ⟨noun, verb⟩)

/-- Settles O47: a run keeps the program and the configuration, and a launch looks at nothing else. -/
theorem nothingSurvivesARunButTheProgram : Obligations.NothingSurvivesARunButTheProgram := by
  intro cfg p ov ov' iv iv' t h hend
  obtain ⟨hP, -, hcfg, -⟩ := runKeepsProgramInputAndExtent _ t h
  obtain ⟨hP', hcfg'⟩ := launched_program cfg p ov iv
  refine ⟨hP.trans hP', ?_⟩
  rw [launch_of_ended hend, hP, hcfg, hP', hcfg']

end Sys2Proof.Machine
end

section
/-! Proofs about IN and OUT (spec/42_io.md R95, R96). -/

namespace Sys2Proof.Machine

/-- Settles O15: with an input and a valid destination the body of IN is its one store. -/
theorem inStoresThePendingInput : Obligations.InStoresThePendingInput := by
  intro d s v hv hd
  have hb : body (.input d) s = .ok (advance 2 (setCell d v s)) := by
    simp only [body, hv, memWrite_of_valid hd]
    rfl
  exact exec_of_body_ok hb

/-- Settles O16: with its operand resolved the body of OUT is its one capture. -/
theorem outCapturesItsOperand : Obligations.OutCapturesItsOperand := by
  intro a s x hx
  have hb : body (.output a) s = .ok (advance 2 (capture x s)) := by
    simp only [body, (resolve_eq_ok_iff a s x).mpr hx]
    rfl
  exact exec_of_body_ok hb

end Sys2Proof.Machine
end

section
/-! Proofs about the memory an instruction reads and writes: its store, what it leaves unchanged, and a destination
that is no address (spec/20_memory.md R34, R35, spec/40_execution_cycle.md R77). -/

namespace Sys2Proof.Machine

variable {s t u : State} {i : Instr}

theorem storeResult_of_values {a b : Operand} {x y : Int} (hx : HasValue s a x) (hy : HasValue s b y)
    (f : Int → Int → Int) (d : Int) : storeResult f a b d s = (memWrite d (f x y) s).map (advance 4) := by
  simp only [storeResult, (resolveTwo_eq_ok_iff a b s x y).mpr ⟨hx, hy⟩, bind, Except.bind]
  cases memWrite d (f x y) s <;> rfl

theorem truthValue_lt (x y : Int) : truthValue (x < y) = if x < y then 1 else 0 := by
  simp only [truthValue, decide_eq_true_eq]

theorem truthValue_eq (x y : Int) : truthValue (x == y) = if x = y then 1 else 0 := by
  simp only [truthValue, beq_iff_eq]

/-- An instruction with a value to store is its one write and the advance of `pc`. -/
theorem body_of_storedValue {d w : Int} (hd : i.dest = some d) (hw : StoredValue s i w) :
    body i s = (memWrite d w s).map (advance i.length) := by
  cases i with
  | add a b e | mul a b e =>
    cases hd
    obtain ⟨x, y, hx, hy, rfl⟩ := hw
    exact storeResult_of_values hx hy _ d
  | lt a b e =>
    cases hd
    obtain ⟨x, y, hx, hy, rfl⟩ := hw
    rw [← truthValue_lt]
    exact storeResult_of_values hx hy (fun x y => truthValue (x < y)) d
  | eq a b e =>
    cases hd
    obtain ⟨x, y, hx, hy, rfl⟩ := hw
    rw [← truthValue_eq]
    exact storeResult_of_values hx hy (fun x y => truthValue (x == y)) d
  | input e =>
    cases hd
    simp only [body, show s.inp = some w from hw]
    rfl
  | output a | jnz a b | jz a b | halt => cases hd

theorem exec_of_storedValue {d w : Int} (hd : i.dest = some d) (hw : StoredValue s i w) (hv : Valid s d) :
    exec i s = .next (countStep (advance i.length (setCell d w s))) := by
  refine exec_of_body_ok ?_
  rw [body_of_storedValue hd hw, memWrite_of_valid hv]
  rfl

/-- With its read parameters and its input there, an instruction with a destination has a value to store. -/
theorem exists_storedValue {d : Int} (hd : i.dest = some d) (hr : ∀ o ∈ i.reads, ∃ v, HasValue s o v)
    (hin : i.opcode = .input → s.inp ≠ none) : ∃ w, StoredValue s i w := by
  cases i with
  | add a b e | mul a b e | lt a b e | eq a b e =>
    obtain ⟨x, hx⟩ := hr a (by simp [Instr.reads])
    obtain ⟨y, hy⟩ := hr b (by simp [Instr.reads])
    exact ⟨_, x, y, hx, hy, rfl⟩
  | input e => exact Option.ne_none_iff_exists'.mp (hin rfl)
  | output a | jnz a b | jz a b | halt => cases hd

/-- Settles O25: the instruction has a value to store, and its one write is of an address that is not valid. -/
theorem destinationOutsideMemoryFaults : Obligations.DestinationOutsideMemoryFaults := by
  intro i s d hd hr hin hv
  obtain ⟨w, hw⟩ := exists_storedValue hd hr hin
  have hb : body i s = .error ⟨.outOfBounds, d⟩ := by
    rw [body_of_storedValue hd hw, memWrite_of_not_valid hv]
    rfl
  exact exec_of_body_error hb

theorem body_ok_cellAt (h : body i s = .ok u) {a : Int} (ha : i.dest ≠ some a) :
    cellAt u.M a = cellAt s.M a := by
  rcases body_ok_cases h with ⟨d, w, hd, hv, -, rfl⟩ | ⟨b, x, -, -, rfl⟩ | ⟨-, y, rfl⟩ | ⟨-, rfl⟩
  · have hne : a ≠ d := by
      rintro rfl
      exact ha hd
    exact cellAt_set_other s.M w hv.1 hne
  · rfl
  · rfl
  · rfl

/-- Settles O29: a completed instruction changes at most its destination's cell, and a fault no cell. -/
theorem instructionChangesOnlyItsDestinationCell : Obligations.InstructionChangesOnlyItsDestinationCell := by
  intro i s t h
  rcases exec_cases h with ⟨u, hu, rfl⟩ | ⟨f, -, rfl⟩
  · obtain ⟨-, -, -, hlen, -⟩ := body_ok_frame hu
    exact ⟨hlen, fun a ha => body_ok_cellAt hu ha⟩
  · exact ⟨rfl, fun a _ => rfl⟩

end Sys2Proof.Machine
end

section
/-! Proofs about the fetch: the parameter words an instruction is decoded from are what `MemRead` reads, cell
after cell from `pc` (spec/20_memory.md R45, spec/40_execution_cycle.md R73, R75). -/

namespace Sys2Proof.Machine

variable {s : State} {i : Instr}

theorem cellsFrom_of_cell {a v : Int} (h : cellAt s.M a = some v) :
    cellsFrom s.M a = v :: cellsFrom s.M (a + 1) := by
  obtain ⟨h0, hv⟩ := (cellAt_eq_some_iff s.M a v).mp h
  obtain ⟨hlt, rfl⟩ := List.getElem?_eq_some_iff.mp hv
  simp only [cellsFrom, if_neg (show ¬a < 0 by omega), if_neg (show ¬a + 1 < 0 by omega),
    show (a + 1).toNat = a.toNat + 1 by omega]
  exact List.drop_eq_getElem_cons hlt

theorem cellsFrom_of_no_cell {a : Int} (h : cellAt s.M a = none) : cellsFrom s.M a = [] :=
  cellsFrom_eq_nil_of_invalid ((cellAt_eq_none_iff s.M a).mp h)

theorem memRead_of_cell {a v : Int} (h : cellAt s.M a = some v) : memRead a s = .ok v :=
  (memRead_eq_ok_iff a s v).mpr h

theorem memRead_of_no_cell {a : Int} (h : cellAt s.M a = none) : memRead a s = .error ⟨.outOfBounds, a⟩ := by
  simp only [memRead, h]

/-- Steps 3 and 4 of R72: the parameter words after an instruction word at `pc`, decoded in its opcode's format. -/
def fetchArgs (op : Opcode) (raw : Int) (s : State) : Access Instr :=
  (decodeArgs op raw.toNat (cellsFrom s.M (s.pc + 1))).mapError (decodeTrap s.pc)

theorem fetch_of_opcode {raw : Int} {op : Opcode} (hw : cellAt s.M s.pc = some raw)
    (hop : decodeOpcode raw = some op) : fetch s = fetchArgs op raw s := by
  simp only [fetch, fetchArgs, cellsFrom_of_cell hw, decode, hop]
  cases decodeArgs op raw.toNat (cellsFrom s.M (s.pc + 1)) <;> rfl

theorem fetch_of_no_opcode {raw : Int} (hw : cellAt s.M s.pc = some raw) (hop : decodeOpcode raw = none) :
    fetch s = .error ⟨.unknownOpcode, raw⟩ := by
  simp only [fetch, cellsFrom_of_cell hw, decode, hop, decodeTrap]

/-! ### Each format's parameter words -/

theorem decodeW_cellsFrom (mk : Int → Instr) (s : State) :
    (decodeW mk (cellsFrom s.M (s.pc + 1))).mapError (decodeTrap s.pc) = do
      let w1 ← memRead (s.pc + 1) s
      return mk w1 := by
  cases h1 : cellAt s.M (s.pc + 1) with
  | none => rw [cellsFrom_of_no_cell h1, memRead_of_no_cell h1]; rfl
  | some w1 => rw [cellsFrom_of_cell h1, memRead_of_cell h1]; rfl

theorem decodeR_cellsFrom (mk : Operand → Instr) (n : Nat) (s : State) :
    (decodeR mk n (cellsFrom s.M (s.pc + 1))).mapError (decodeTrap s.pc) = do
      let w1 ← memRead (s.pc + 1) s
      return mk (operandOf (digit 2 n) w1) := by
  cases h1 : cellAt s.M (s.pc + 1) with
  | none => rw [cellsFrom_of_no_cell h1, memRead_of_no_cell h1]; rfl
  | some w1 => rw [cellsFrom_of_cell h1, memRead_of_cell h1]; rfl

theorem cellsFrom_two {w1 : Int} (h1 : cellAt s.M (s.pc + 1) = some w1) :
    cellsFrom s.M (s.pc + 1) = w1 :: cellsFrom s.M (s.pc + 2) := by
  rw [cellsFrom_of_cell h1, add_assoc]
  rfl

theorem decodeRR_cellsFrom (mk : Operand → Operand → Instr) (n : Nat) (s : State) :
    (decodeRR mk n (cellsFrom s.M (s.pc + 1))).mapError (decodeTrap s.pc) = do
      let w1 ← memRead (s.pc + 1) s
      let w2 ← memRead (s.pc + 2) s
      return mk (operandOf (digit 2 n) w1) (operandOf (digit 3 n) w2) := by
  cases h1 : cellAt s.M (s.pc + 1) with
  | none => rw [cellsFrom_of_no_cell h1, memRead_of_no_cell h1]; rfl
  | some w1 =>
    rw [cellsFrom_two h1, memRead_of_cell h1]
    cases h2 : cellAt s.M (s.pc + 2) with
    | none => rw [cellsFrom_of_no_cell h2, memRead_of_no_cell h2]; rfl
    | some w2 => rw [cellsFrom_of_cell h2, memRead_of_cell h2]; rfl

theorem decodeRRW_cellsFrom (mk : Operand → Operand → Int → Instr) (n : Nat) (s : State) :
    (decodeRRW mk n (cellsFrom s.M (s.pc + 1))).mapError (decodeTrap s.pc) = do
      let w1 ← memRead (s.pc + 1) s
      let w2 ← memRead (s.pc + 2) s
      let w3 ← memRead (s.pc + 3) s
      return mk (operandOf (digit 2 n) w1) (operandOf (digit 3 n) w2) w3 := by
  cases h1 : cellAt s.M (s.pc + 1) with
  | none => rw [cellsFrom_of_no_cell h1, memRead_of_no_cell h1]; rfl
  | some w1 =>
    rw [cellsFrom_two h1, memRead_of_cell h1]
    cases h2 : cellAt s.M (s.pc + 2) with
    | none => rw [cellsFrom_of_no_cell h2, memRead_of_no_cell h2]; rfl
    | some w2 =>
      rw [cellsFrom_of_cell h2, memRead_of_cell h2, show s.pc + 2 + 1 = s.pc + 3 by omega]
      cases h3 : cellAt s.M (s.pc + 3) with
      | none => rw [cellsFrom_of_no_cell h3, memRead_of_no_cell h3]; rfl
      | some w3 => rw [cellsFrom_of_cell h3, memRead_of_cell h3]; rfl

/-! ### A step at a given word -/

theorem nextInstr_of_below (h : BelowLimit s) : nextInstr s = fetch s := by
  simp only [nextInstr, (watchdog_eq_ok_iff s).mpr h]
  rfl

theorem step_of_fetchArgs {raw : Int} {op : Opcode} (h : Ready s raw) (hop : decodeOpcode raw = some op)
    (hi : fetchArgs op raw s = .ok i) : step s = exec i s := by
  obtain ⟨hr, hb, hw⟩ := h
  exact step_of_instr hr ((nextInstr_of_below hb).trans ((fetch_of_opcode hw hop).trans hi))

theorem fetchArgs_add {raw w1 w2 w3 : Int} (h1 : cellAt s.M (s.pc + 1) = some w1)
    (h2 : cellAt s.M (s.pc + 2) = some w2) (h3 : cellAt s.M (s.pc + 3) = some w3) :
    fetchArgs .add raw s =
      .ok (.add (operandOf (digit 2 raw.toNat) w1) (operandOf (digit 3 raw.toNat) w2) w3) := by
  simp only [fetchArgs, decodeArgs, decodeRRW_cellsFrom, memRead_of_cell h1, memRead_of_cell h2,
    memRead_of_cell h3]
  rfl

theorem exec_add_of_values {a b : Operand} {d x y : Int} (hx : HasValue s a x) (hy : HasValue s b y)
    (hd : Valid s d) :
    ∃ t, exec (.add a b d) s = .next t ∧ cellAt t.M d = some (x + y) ∧ t.pc = s.pc + 4 :=
  ⟨_, exec_of_storedValue rfl ⟨x, y, hx, hy, rfl⟩ hd, cellAt_set_self hd (x + y), rfl⟩

/-- Settles O20: the sum is that of the operands before the write, also where the write is to an operand's cell
or to one of the instruction's own. -/
theorem readsPrecedeTheWriteOfAdd : Obligations.ReadsPrecedeTheWriteOfAdd := by
  refine ⟨fun s d v hv => exec_add_of_values hv hv (valid_of_cellAt hv), ?_⟩
  intro s raw w1 w2 w3 x y hready h0 hraw h1 h2 h3 hx hy hle hge
  have hop : decodeOpcode raw = some .add := (decodeOpcode_eq_some_iff_code raw .add).mpr ⟨h0, hraw⟩
  have hvalid : Valid s w3 := by
    obtain ⟨-, -, hw⟩ := hready
    obtain ⟨hpc, -⟩ := valid_of_cellAt hw
    obtain ⟨-, hend⟩ := valid_of_cellAt h3
    exact ⟨hpc.trans hle, hge.trans_lt hend⟩
  rw [step_of_fetchArgs hready hop (fetchArgs_add h1 h2 h3)]
  exact exec_add_of_values hx hy hvalid

end Sys2Proof.Machine
end

section
/-! Proofs that a step at a word is the spec's consolidated block for that word (spec/20_memory.md R45,
spec/40_execution_cycle.md R72 and section 4): each part of the block is the operation it transcribes. -/

namespace Sys2Proof.Machine

variable {s : State} {raw : Int}

/-- The state an instruction ends in: counted where it completes, its fault taken where it raises one. -/
def concluded (s : State) : Access State → State
  | .ok u => countStep u
  | .error f => takeFault f s

theorem conclude_eq_concluded (s : State) (r : Access State) : conclude s r = .next (concluded s r) := by
  cases r <;> rfl

theorem step_eq_concluded (hr : s.run = .running) :
    step s = .next (concluded s (nextInstr s >>= fun i => body i s)) := by
  cases h : nextInstr s with
  | error f => exact step_of_trap hr h
  | ok i => rw [step_of_instr hr h, exec_eq_conclude_body, conclude_eq_concluded]; rfl

/-! ### The parts of the block -/

theorem blockRead_eq_concluded {a : Int} {k : Int → State} {g : Int → Access State}
    (h : ∀ v, k v = concluded s (g v)) : blockRead s a k = concluded s (memRead a s >>= g) := by
  unfold blockRead
  cases hc : cellAt s.M a with
  | none =>
    have hv := (cellAt_eq_none_iff s.M a).mp hc
    rw [if_pos (by omega), memRead_of_no_cell hc]
    rfl
  | some v =>
    obtain ⟨h0, hlt⟩ := valid_of_cellAt hc
    obtain ⟨-, hv⟩ := (cellAt_eq_some_iff s.M a v).mp hc
    rw [if_neg (by omega), memRead_of_cell hc, List.getD_eq_getElem?_getD, hv]
    exact h v

theorem blockResolve_eq_concluded (hw : cellAt s.M s.pc = some raw) {w : Int} {m : Nat} {k : Int → State}
    {g : Int → Access State} (h : ∀ v, k v = concluded s (g v)) :
    blockResolve s raw w m k = concluded s (resolve (operandOf m w) s >>= g) := by
  unfold blockResolve
  match m with
  | 0 => exact blockRead_eq_concluded h
  | 1 => exact h w
  | m + 2 =>
    rw [if_neg (by omega), if_neg (by omega)]
    simp only [operandOf, resolve, raiseWithWord_of_word hw]
    rfl

theorem blockWrite_eq_concluded (s : State) (a v : Int) (n : Nat) :
    blockWrite s a v (s.pc + n) = concluded s ((memWrite a v s).map (advance n)) := by
  unfold blockWrite
  by_cases h : Valid s a
  · rw [memWrite_of_valid h, if_neg (by unfold Valid at h; omega)]
    rfl
  · rw [memWrite_of_not_valid h, if_pos (by unfold Valid at h; omega)]
    rfl

/-! ### The cases of the block -/

theorem digit_two_toNat (h : 0 ≤ raw) : raw / 100 % 10 = digit 2 raw.toNat := by
  unfold digit
  omega

theorem digit_three_toNat (h : 0 ≤ raw) : raw / 1000 % 10 = digit 3 raw.toNat := by
  unfold digit
  omega

/-- What the block stores for opcodes 1, 2, 7 and 8. -/
def blockValue (op a b : Int) : Int :=
  if op = 1 then a + b else if op = 2 then a * b else if op = 7 then if a < b then 1 else 0
  else if a = b then 1 else 0

theorem blockRRW_eq_concluded (hw : cellAt s.M s.pc = some raw) (h0 : 0 ≤ raw)
    {mk : Operand → Operand → Int → Instr} {f : Int → Int → Int}
    (hmk : ∀ a b d, body (mk a b d) s = storeResult f a b d s) (hf : ∀ x y, blockValue (raw % 100) x y = f x y) :
    blockRRW s raw = concluded s
      ((decodeRRW mk raw.toNat (cellsFrom s.M (s.pc + 1))).mapError (decodeTrap s.pc) >>= fun i => body i s) := by
  simp only [decodeRRW_cellsFrom, bind_assoc, pure_bind, hmk, storeResult, resolveTwo]
  unfold blockRRW
  rw [digit_two_toNat h0, digit_three_toNat h0]
  refine blockRead_eq_concluded fun w1 => blockRead_eq_concluded fun w2 => blockRead_eq_concluded fun w3 => ?_
  refine blockResolve_eq_concluded hw fun x => blockResolve_eq_concluded hw fun y => ?_
  rw [← hf x y]
  exact blockWrite_eq_concluded s w3 _ 4

theorem concluded_jump (s : State) (y : Int) (taken : Bool) :
    concluded s (.ok (if taken then jumpTo y s else advance 3 s)) =
      { s with pc := if taken then y else s.pc + 3, steps := s.steps + 1 } := by
  cases taken <;> rfl

theorem blockRR_eq_concluded (hw : cellAt s.M s.pc = some raw) (h0 : 0 ≤ raw) {mk : Operand → Operand → Instr}
    {p : Int → Bool} (hmk : ∀ a b, body (mk a b) s = jumpWhen p a b s)
    (hp : ∀ x, p x = if raw % 100 = 5 then nonZero x else !nonZero x) :
    blockRR s raw = concluded s
      ((decodeRR mk raw.toNat (cellsFrom s.M (s.pc + 1))).mapError (decodeTrap s.pc) >>= fun i => body i s) := by
  simp only [decodeRR_cellsFrom, bind_assoc, pure_bind, hmk, jumpWhen, resolveTwo]
  unfold blockRR
  rw [digit_two_toNat h0, digit_three_toNat h0]
  refine blockRead_eq_concluded fun w1 => blockRead_eq_concluded fun w2 => ?_
  refine blockResolve_eq_concluded hw fun x => blockResolve_eq_concluded hw fun y => ?_
  rw [hp x]
  refine .trans ?_ (concluded_jump s y _).symm
  by_cases h5 : raw % 100 = 5
  · simp [h5, nonZero]
  · simp [h5, nonZero]

theorem blockIn_eq_concluded (hw : cellAt s.M s.pc = some raw) :
    blockIn s raw = concluded s
      ((decodeW .input (cellsFrom s.M (s.pc + 1))).mapError (decodeTrap s.pc) >>= fun i => body i s) := by
  simp only [decodeW_cellsFrom, bind_assoc, pure_bind]
  refine blockRead_eq_concluded fun w1 => ?_
  simp only [body]
  cases s.inp with
  | none => rw [raiseWithWord_of_word hw]; rfl
  | some v => exact blockWrite_eq_concluded s w1 v 2

theorem blockOut_eq_concluded (hw : cellAt s.M s.pc = some raw) (h0 : 0 ≤ raw) :
    blockOut s raw = concluded s
      ((decodeR .output raw.toNat (cellsFrom s.M (s.pc + 1))).mapError (decodeTrap s.pc) >>= fun i =>
        body i s) := by
  simp only [decodeR_cellsFrom, bind_assoc, pure_bind]
  unfold blockOut
  rw [digit_two_toNat h0]
  exact blockRead_eq_concluded fun w1 => blockResolve_eq_concluded hw fun x => rfl

/-! ### The whole block -/

theorem blockWord_of_no_opcode (h : decodeOpcode raw = none) :
    blockWord s raw = faultEntry s .unknownOpcode raw := by
  rw [decodeOpcode_eq_none_iff] at h
  unfold HasOpcode at h
  unfold blockWord
  by_cases h0 : raw < 0
  · rw [if_pos h0]
  · simp only [if_neg h0]
    rw [if_neg (by omega), if_neg (by omega), if_neg (by omega), if_neg (by omega), if_neg (by omega)]

theorem blockWord_of_opcode {op : Opcode} (hw : cellAt s.M s.pc = some raw) (hop : decodeOpcode raw = some op) :
    blockWord s raw = concluded s (fetchArgs op raw s >>= fun i => body i s) := by
  obtain ⟨h0, hc⟩ := (decodeOpcode_eq_some_iff_code raw op).mp hop
  simp only [blockWord, if_neg (not_lt.mpr h0), fetchArgs, hc]
  cases op with
  | add => exact blockRRW_eq_concluded hw h0 (fun _ _ _ => rfl) fun x y => by rw [hc]; rfl
  | mul => exact blockRRW_eq_concluded hw h0 (fun _ _ _ => rfl) fun x y => by rw [hc]; rfl
  | lt =>
    exact blockRRW_eq_concluded (f := fun x y => truthValue (x < y)) hw h0 (fun _ _ _ => rfl) fun x y => by
      rw [hc, truthValue_lt]; rfl
  | eq =>
    exact blockRRW_eq_concluded (f := fun x y => truthValue (x == y)) hw h0 (fun _ _ _ => rfl) fun x y => by
      rw [hc, truthValue_eq]; rfl
  | input => exact blockIn_eq_concluded hw
  | output => exact blockOut_eq_concluded hw h0
  | jnz => exact blockRR_eq_concluded (p := nonZero) hw h0 (fun _ _ => rfl) fun x => by rw [hc]; rfl
  | jz =>
    exact blockRR_eq_concluded (p := fun x => !nonZero x) hw h0 (fun _ _ => rfl) fun x => by rw [hc]; rfl
  | halt => rfl

/-- R72: the decoder, the operands and the operations together do what the block of section 4 writes out. -/
theorem step_eq_blockWord (h : Ready s raw) : step s = .next (blockWord s raw) := by
  obtain ⟨hr, hb, hw⟩ := h
  rw [step_eq_concluded hr, nextInstr_of_below hb]
  cases hop : decodeOpcode raw with
  | none => rw [fetch_of_no_opcode hw hop, blockWord_of_no_opcode hop]; rfl
  | some op => rw [fetch_of_opcode hw hop, blockWord_of_opcode hw hop]

/-- Settles O21: the store leaves the word in its cell, and a step at that cell is the block for the word. -/
theorem storeIsSeenByTheNextFetch : Obligations.StoreIsSeenByTheNextFetch := by
  intro i s d w hd hw hv
  refine ⟨_, exec_of_storedValue hd hw hv, rfl, rfl, rfl, fun u hr hb hpc hcell => ?_⟩
  have hword : cellAt u.M u.pc = some w := by
    rw [hpc, hcell]
    exact cellAt_set_self hv w
  exact step_eq_blockWord ⟨hr, hb, hword⟩

end Sys2Proof.Machine
end

section
/-! Proofs about the decoder and the encoder together (spec/30_encoding.md R50 to R65): what decoding gives back of
an encoding, what encoding gives back of the cells that were decoded, and the digits neither depends on. -/

namespace Sys2Proof

variable {raw : Int} {args : List Int} {i : Instr} {op : Opcode} {n : Nat}

/-- Settles O1: each word is written out, so the decoder computes the instruction. -/
theorem encodingTableWordsDecode : Obligations.EncodingTableWordsDecode :=
  ⟨rfl, rfl, rfl, rfl, rfl, rfl, rfl, rfl, rfl⟩

/-- Settles O5, from what it means for a word to have an opcode and to have none. -/
theorem opcodeMapOverAllWords : Obligations.OpcodeMapOverAllWords :=
  ⟨decodeOpcode_eq_some_iff_code, decodeOpcode_eq_none_iff⟩

theorem decode_cons_of_opcode (h : decodeOpcode raw = some op) (args : List Int) :
    decode (raw :: args) = decodeArgs op raw.toNat args := by
  simp only [decode, h]

/-! ### Decoding an encoding -/

@[simp] theorem decode_instructionWord_cons (op : Opcode) (m1 m2 : Nat) (args : List Int) :
    decode (instructionWord op m1 m2 :: args) = decodeArgs op (instructionWord op m1 m2).toNat args :=
  decode_cons_of_opcode (decodeOpcode_instructionWord op m1 m2) args

@[simp] theorem operandOf_digit_two_instructionWord (op : Opcode) (a : Operand) (m2 : Nat) :
    operandOf (digit 2 (instructionWord op a.modeDigit m2).toNat) a.word = a := by
  rw [digit_two_instructionWord op m2 (modeDigit_lt a), operandOf_modeDigit]

@[simp] theorem operandOf_digit_three_instructionWord (op : Opcode) (a b : Operand) :
    operandOf (digit 3 (instructionWord op a.modeDigit b.modeDigit).toNat) b.word = b := by
  rw [digit_three_instructionWord op (modeDigit_lt a) (modeDigit_lt b), operandOf_modeDigit]

/-- Settles O2: the instruction word gives back the opcode and both mode digits, a mode digit with its parameter
word the operand, and no format looks at the cells after its own. -/
theorem encodeThenDecodeGivesTheInstruction : Obligations.EncodeThenDecodeGivesTheInstruction := by
  intro i rest
  cases i with
  | add a b d | mul a b d | lt a b d | eq a b d => simp [encode, decodeArgs, decodeRRW]
  | jnz a b | jz a b => simp [encode, decodeArgs, decodeRR]
  | output a => simp [encode, decodeArgs, decodeR]
  | input d => simp [encode, decodeArgs, decodeW]
  | halt => simp [encode, decodeArgs]

/-! ### Encoding what was decoded -/

/-- What is left of an instruction word once every digit that R60 ignores is 0: the opcode and the mode digits its
format uses. -/
def canonicalWord (op : Opcode) (n : Nat) : Int :=
  match op with
  | .add | .mul | .lt | .eq | .jnz | .jz => instructionWord op (digit 2 n) (digit 3 n)
  | .output => instructionWord op (digit 2 n) 0
  | .input | .halt => instructionWord op 0 0

/-- A word and its canonical word differ exactly in the ignored digits. -/
theorem canonicalWord_eq_iff (h : decodeOpcode raw = some op) :
    canonicalWord op raw.toNat = raw ↔ Machine.IgnoredDigitsZero op raw := by
  obtain ⟨h0, hc⟩ := (decodeOpcode_eq_some_iff_code raw op).mp h
  cases op <;> simp only [canonicalWord, instructionWord, digit, Opcode.code, Machine.IgnoredDigitsZero] at hc ⊢ <;>
    omega

@[simp] theorem modeDigit_operandOf_digit (k n : Nat) (w : Int) :
    (operandOf (digit k n) w).modeDigit = digit k n :=
  modeDigit_operandOf (Nat.mod_lt _ (by decide)) w

/-- The cells `ws` after an instruction word are the whole parameter list of `i`: as many as its length says, they
decode to `i` whatever follows them, and they are what its encoding has after the word. -/
def ParametersOf (op : Opcode) (n : Nat) (i : Instr) (ws : List Int) : Prop :=
  i.length = ws.length + 1 ∧ (∀ rest, decodeArgs op n (ws ++ rest) = .ok i) ∧ encode i = canonicalWord op n :: ws

/-- Everything a format that decodes has read: the parameter list at the head of the cells. -/
theorem decodeArgs_ok_parameters (h : decodeArgs op n args = .ok i) :
    ∃ ws tl, args = ws ++ tl ∧ ParametersOf op n i ws := by
  cases op with
  | add | mul | lt | eq =>
    match args, h with
    | w1 :: w2 :: w3 :: tl, rfl =>
      exact ⟨[w1, w2, w3], tl, rfl, rfl, fun _ => rfl, by simp [encode, canonicalWord]⟩
  | jnz | jz =>
    match args, h with
    | w1 :: w2 :: tl, rfl => exact ⟨[w1, w2], tl, rfl, rfl, fun _ => rfl, by simp [encode, canonicalWord]⟩
  | output =>
    match args, h with
    | w1 :: tl, rfl => exact ⟨[w1], tl, rfl, rfl, fun _ => rfl, by simp [encode, canonicalWord]⟩
  | input =>
    match args, h with
    | w1 :: tl, rfl => exact ⟨[w1], tl, rfl, rfl, fun _ => rfl, rfl⟩
  | halt =>
    cases h
    exact ⟨[], args, rfl, rfl, fun _ => rfl, rfl⟩

/-- The same of a whole list of cells: the first one has the opcode, the next ones are the parameters. -/
theorem decode_cons_ok_parameters (h : decode (raw :: args) = .ok i) :
    decodeOpcode raw = some i.opcode ∧ ∃ ws tl, args = ws ++ tl ∧ ParametersOf i.opcode raw.toNat i ws := by
  obtain ⟨w, as, hc, hop, ha⟩ := decode_ok h
  cases hc
  exact ⟨hop, decodeArgs_ok_parameters ha⟩

/-- Settles O3: the encoding is the canonical word with the parameters that were read, and the canonical word is the
word itself exactly when its ignored digits are 0. -/
theorem reencodingKeepsExactlyTheWordsWithNoIgnoredDigit :
    Obligations.ReencodingKeepsExactlyTheWordsWithNoIgnoredDigit := by
  intro raw args i h
  obtain ⟨hop, ws, tl, rfl, hlen, -, henc⟩ := decode_cons_ok_parameters h
  have htake : (ws ++ tl).take (i.length - 1) = ws := by rw [hlen, Nat.add_sub_cancel, List.take_left]
  rw [henc, htake, List.cons_eq_cons, and_iff_left rfl]
  exact canonicalWord_eq_iff hop

/-- Settles O6: the parameters are at the head of the cells, and decode alike whatever follows them. -/
theorem decodingReadsExactlyTheInstructionsCells : Obligations.DecodingReadsExactlyTheInstructionsCells := by
  intro raw args rest i h
  obtain ⟨hop, ws, tl, rfl, hlen, hdec, -⟩ := decode_cons_ok_parameters h
  refine ⟨hop, by simp [hlen], ?_⟩
  rw [hlen, List.take_succ_cons, List.take_left, List.cons_append, decode_cons_of_opcode hop]
  exact hdec rest

/-! ### Digits the decoder ignores -/

/-- A format depends on the mode digits of the read parameters it has, and on no other digit of the word. -/
theorem decodeArgs_congr {n' : Nat} (h2 : op ≠ .input → op ≠ .halt → digit 2 n = digit 2 n')
    (h3 : op ≠ .input → op ≠ .halt → op ≠ .output → digit 3 n = digit 3 n') :
    decodeArgs op n args = decodeArgs op n' args := by
  cases op with
  | add | mul | lt | eq => simp only [decodeArgs, decodeRRW, h2 nofun nofun, h3 nofun nofun nofun]
  | jnz | jz => simp only [decodeArgs, decodeRR, h2 nofun nofun, h3 nofun nofun nofun]
  | output => simp only [decodeArgs, decodeR, h2 nofun nofun]
  | input => rfl
  | halt => rfl

theorem code_injective : Function.Injective Opcode.code := by
  intro a b h
  simpa [h] using (opcodeOf_code a).symm

/-- Settles O4: both words have the one opcode, and the format of that opcode uses only the digits they share. -/
theorem ignoredDigitsDoNotChangeTheDecoding : Obligations.IgnoredDigitsDoNotChangeTheDecoding := by
  intro raw raw' args h0 h0' hmod hm1 hm2 hhas
  obtain ⟨op, hop⟩ := (hasOpcode_iff raw).mp hhas
  obtain ⟨-, hc⟩ := (decodeOpcode_eq_some_iff_code raw op).mp hop
  have hop' : decodeOpcode raw' = some op := (decodeOpcode_eq_some_iff_code raw' op).mpr ⟨h0', hmod ▸ hc⟩
  have hne {op' : Opcode} (h : op ≠ op') : raw % 100 ≠ op'.code := fun he =>
    h (code_injective (Int.ofNat_inj.mp (hc.symm.trans he)))
  rw [decode_cons_of_opcode hop, decode_cons_of_opcode hop']
  refine decodeArgs_congr (fun hin hhalt => ?_) (fun hin hhalt hout => ?_)
  · have h := hm1 (hne hin) (hne hhalt)
    rw [Machine.digit_two_toNat h0, Machine.digit_two_toNat h0'] at h
    exact Int.ofNat_inj.mp h
  · have h := hm2 (hne hin) (hne hhalt) (hne hout)
    rw [Machine.digit_three_toNat h0, Machine.digit_three_toNat h0'] at h
    exact Int.ofNat_inj.mp h

end Sys2Proof
end

section
/-! Proofs about assembly statements (spec/30_encoding.md R59, R63, R65): a legal operand can be written and read
back, an illegal one cannot be written. -/

namespace Sys2Proof.Machine

theorem asmRead_of_legal {o : Operand} (h : o.legal = true) (labels : List (String × Nat)) :
    ∃ r, asmRead o = some r ∧ r.operand labels = some o := by
  cases o with
  | position a => exact ⟨_, rfl, rfl⟩
  | immediate v => exact ⟨_, rfl, rfl⟩
  | unknownMode d w => cases h

theorem asmRead_of_illegal {o : Operand} (h : o.legal = false) : asmRead o = none := by
  cases o with
  | position a => cases h
  | immediate v => cases h
  | unknownMode d w => rfl

theorem asmReads_of_legal {os : List Operand} (h : os.all Operand.legal = true) (labels : List (String × Nat)) :
    ∃ rs, os.mapM asmRead = some rs ∧ rs.length = os.length ∧ rs.mapM (AsmRead.operand labels) = some os := by
  induction os with
  | nil => exact ⟨[], rfl, rfl, rfl⟩
  | cons o os ih =>
    obtain ⟨ho, hos⟩ := Bool.and_eq_true_iff.mp (List.all_cons.symm.trans h)
    obtain ⟨r, hr, hr'⟩ := asmRead_of_legal ho labels
    obtain ⟨rs, hrs, hlen, hrs'⟩ := ih hos
    exact ⟨r :: rs, by simp [hr, hrs], by simp [hlen], by simp [hr', hrs']⟩

theorem asmReads_of_illegal {os : List Operand} (h : os.all Operand.legal = false) : os.mapM asmRead = none := by
  induction os with
  | nil => cases h
  | cons o os ih =>
    rcases Bool.and_eq_false_iff.mp (List.all_cons.symm.trans h) with ho | hos
    · simp [asmRead_of_illegal ho]
    · simp [ih hos]

/-- The assembler's own table of formats is that of the instructions (Table R55). -/
theorem asm_format (i : Instr) :
    i.reads.length = asmReads i.opcode ∧ i.dest.isSome = asmWrites i.opcode := by
  cases i <;> exact ⟨rfl, rfl⟩

theorem encode_eq_asmWord_cons (i : Instr) :
    encode i = asmWord i.opcode i.reads :: (i.reads.map Operand.word ++ i.dest.toList) := by
  cases i <;> rfl

theorem mapM_value_lit (labels : List (String × Nat)) (d : Option Int) :
    (d.map AsmInt.lit).toList.mapM (AsmInt.value labels) = some d.toList := by
  cases d <;> rfl

/-- Settles O7: the read operands are written and read back one by one, the destination is written as its number,
and the format of the statement is that of the instruction. -/
theorem notationAssemblesToTheCanonicalCells : Obligations.NotationAssemblesToTheCanonicalCells := by
  intro i labels
  constructor
  · intro h
    obtain ⟨rs, hrs, hlen, hrs'⟩ := asmReads_of_legal h labels
    obtain ⟨hreads, hdest⟩ := asm_format i
    refine ⟨.instr i.opcode rs (i.dest.map .lit), by simp [asmOf, hrs], ?_⟩
    rw [AsmStmt.cells, if_pos ⟨hlen.trans hreads, by rw [Option.isSome_map, hdest]⟩, hrs', mapM_value_lit,
      encode_eq_asmWord_cons]
    rfl
  · intro h
    rw [asmOf, asmReads_of_illegal h]
    rfl

end Sys2Proof.Machine
end

section
/-! Proofs about illegal encodings (spec/30_encoding.md R58, R59): a word without an opcode and a used mode digit of 2
to 9, each by the block that a step at the word is. -/

namespace Sys2Proof.Machine

variable {s : State} {raw : Int}

/-- Settles O10: without an opcode the step is the block's entry of UnknownOpcode; a raised UnknownOpcode tells the
truth about the word at `pc`, so it is raised at no word with an opcode. -/
theorem illegalWordRaisesUnknownOpcode : Obligations.IllegalWordRaisesUnknownOpcode := by
  intro s raw hready
  constructor
  · intro hno
    rw [step_eq_blockWord hready, blockWord_of_no_opcode ((decodeOpcode_eq_none_iff raw).mpr hno)]
  · intro hhas v hstep
    obtain ⟨-, -, hw⟩ := hready
    obtain ⟨hr, ⟨⟨c, x⟩, hf, ht⟩ | ⟨i, u, -, hu, ht⟩⟩ := step_raises_or_completes hstep
    · have hc : Cause.unknownOpcode = c := Option.some.inj (congrArg State.fcause ht)
      subst hc
      obtain ⟨hx, hno⟩ := raises_trapTrue hf
      cases hw.symm.trans hx
      exact hno hhas
    · exact body_ok_run_ne_faulted hr hu (congrArg State.run ht).symm

/-! ### Illegal mode digits -/

theorem blockRead_of_cell {a v : Int} (h : cellAt s.M a = some v) (k : Int → State) : blockRead s a k = k v := by
  obtain ⟨h0, hlt⟩ := valid_of_cellAt h
  obtain ⟨-, hv⟩ := (cellAt_eq_some_iff s.M a v).mp h
  rw [blockRead, if_neg (by omega), List.getD_eq_getElem?_getD, hv]
  rfl

theorem blockResolve_of_unknown {m : Int} (h : 2 ≤ m) (w : Int) (k : Int → State) :
    blockResolve s raw w m k = faultEntry s .unknownMode raw := by
  rw [blockResolve, if_neg (by omega), if_neg (by omega)]

theorem blockResolve_of_known {m w : Int} (h0 : 0 ≤ m) (h2 : m < 2) (hv : m = 0 → Valid s w) :
    ∃ x, ∀ k, blockResolve s raw w m k = k x := by
  unfold blockResolve
  by_cases hm : m = 0
  · obtain ⟨x, hx⟩ := exists_cellAt_of_valid (hv hm)
    exact ⟨x, fun k => by rw [if_pos hm, blockRead_of_cell hx]⟩
  · exact ⟨w, fun k => by rw [if_neg hm, if_pos (by omega)]⟩

/-- Parameter 1 is resolvable under its mode digit, `w` being its word (R59, R76). -/
def FirstResolvable (s : State) (raw w : Int) : Prop :=
  raw / 100 % 10 < 2 ∧ (raw / 100 % 10 = 0 → Valid s w)

/-- Of two read parameters, the first with an illegal mode digit is met: parameter 1, or parameter 2 after
parameter 1 has been resolved. -/
theorem blockResolve_two_of_unknown {w1 w2 : Int} {k : Int → Int → State}
    (h : 2 ≤ raw / 100 % 10 ∨ (FirstResolvable s raw w1 ∧ 2 ≤ raw / 1000 % 10)) :
    (blockResolve s raw w1 (raw / 100 % 10) fun a => blockResolve s raw w2 (raw / 1000 % 10) (k a)) =
      faultEntry s .unknownMode raw := by
  rcases h with h1 | ⟨⟨hlt, hv⟩, h2⟩
  · exact blockResolve_of_unknown h1 w1 _
  · obtain ⟨x, hx⟩ := blockResolve_of_known (raw := raw) (by omega) hlt hv
    rw [hx]
    exact blockResolve_of_unknown h2 w2 _

theorem blockRRW_of_unknownMode {w1 w2 w3 : Int} (h1 : cellAt s.M (s.pc + 1) = some w1)
    (h2 : cellAt s.M (s.pc + 2) = some w2) (h3 : cellAt s.M (s.pc + 3) = some w3)
    (h : 2 ≤ raw / 100 % 10 ∨ (FirstResolvable s raw w1 ∧ 2 ≤ raw / 1000 % 10)) :
    blockRRW s raw = faultEntry s .unknownMode raw := by
  rw [blockRRW, blockRead_of_cell h1, blockRead_of_cell h2, blockRead_of_cell h3]
  exact blockResolve_two_of_unknown h

theorem blockRR_of_unknownMode {w1 w2 : Int} (h1 : cellAt s.M (s.pc + 1) = some w1)
    (h2 : cellAt s.M (s.pc + 2) = some w2)
    (h : 2 ≤ raw / 100 % 10 ∨ (FirstResolvable s raw w1 ∧ 2 ≤ raw / 1000 % 10)) :
    blockRR s raw = faultEntry s .unknownMode raw := by
  rw [blockRR, blockRead_of_cell h1, blockRead_of_cell h2]
  exact blockResolve_two_of_unknown h

theorem blockOut_of_unknownMode {w1 : Int} (h1 : cellAt s.M (s.pc + 1) = some w1) (h : 2 ≤ raw / 100 % 10) :
    blockOut s raw = faultEntry s .unknownMode raw := by
  rw [blockOut, blockRead_of_cell h1]
  exact blockResolve_of_unknown h w1 _

/-- The block of every format with read parameters, its cells being there: OUT has no parameter 2. -/
theorem blockWord_of_unknownMode {op : Opcode} {w1 : Int} (hop : decodeOpcode raw = some op)
    (hfit : ∀ k : Nat, k < op.length → Valid s (s.pc + k)) (hin : op ≠ .input) (hhalt : op ≠ .halt)
    (h1 : cellAt s.M (s.pc + 1) = some w1)
    (h : 2 ≤ raw / 100 % 10 ∨ (op ≠ .output ∧ FirstResolvable s raw w1 ∧ 2 ≤ raw / 1000 % 10)) :
    blockWord s raw = faultEntry s .unknownMode raw := by
  obtain ⟨h0, hc⟩ := (decodeOpcode_eq_some_iff_code raw op).mp hop
  simp only [blockWord, if_neg (not_lt.mpr h0), hc]
  cases op with
  | add | mul | lt | eq =>
    obtain ⟨w2, h2⟩ := exists_cellAt_of_valid (hfit 2 (by decide))
    obtain ⟨w3, h3⟩ := exists_cellAt_of_valid (hfit 3 (by decide))
    exact blockRRW_of_unknownMode h1 h2 h3 (h.imp_right And.right)
  | jnz | jz =>
    obtain ⟨w2, h2⟩ := exists_cellAt_of_valid (hfit 2 (by decide))
    exact blockRR_of_unknownMode h1 h2 (h.imp_right And.right)
  | output => exact blockOut_of_unknownMode h1 (h.resolve_right fun ⟨hno, _⟩ => hno rfl)
  | input => exact absurd rfl hin
  | halt => exact absurd rfl hhalt

theorem one_lt_length {op : Opcode} (h : op ≠ .halt) : 1 < op.length := by
  cases op with
  | halt => exact absurd rfl h
  | _ => decide

/-- Settles O12: the step is the block for the word, whose first read parameter with an illegal mode digit faults
once its cells have been fetched. -/
theorem usedModeDigitAboveOneRaisesUnknownMode : Obligations.UsedModeDigitAboveOneRaisesUnknownMode := by
  intro s raw op hready hop hfit hin hhalt
  obtain ⟨w1, h1⟩ := exists_cellAt_of_valid (hfit 1 (one_lt_length hhalt))
  rw [step_eq_blockWord hready]
  constructor
  · intro hm1
    rw [blockWord_of_unknownMode hop hfit hin hhalt h1 (.inl hm1)]
  · intro hout hm2 hm1 hres
    have hfirst : FirstResolvable s raw w1 := by
      refine ⟨hm1, fun hm => ?_⟩
      obtain ⟨w, hw, hv⟩ := hres hm
      cases h1.symm.trans hw
      exact hv
    rw [blockWord_of_unknownMode hop hfit hin hhalt h1 (.inr ⟨hout, hfirst, hm2⟩)]

end Sys2Proof.Machine
end

section
/-! Proofs about the fetch and the whole step (spec/40_execution_cycle.md R72 to R75, section 4). -/

namespace Sys2Proof.Machine

variable {s : State} {raw : Int} {i : Instr} {op : Opcode}

/-! ### From the start of a step to the word at `pc` -/

theorem blockRead_of_not_valid {a : Int} (h : ¬Valid s a) (k : Int → State) :
    blockRead s a k = faultEntry s .outOfBounds a := by
  rw [blockRead, if_pos (by unfold Valid at h; omega)]

theorem fetch_of_not_valid (h : ¬Valid s s.pc) : fetch s = .error ⟨.outOfBounds, s.pc⟩ := by
  simp [fetch, cellsFrom_eq_nil_of_invalid h, decode, decodeTrap]

theorem step_of_fetch_error {f : Trap} (hr : s.run = .running) (hb : BelowLimit s) (h : fetch s = .error f) :
    step s = .next (faultEntry s f.cause f.info) :=
  step_of_trap hr ((nextInstr_of_below hb).trans h)

theorem step_of_pc_not_valid (hr : s.run = .running) (hb : BelowLimit s) (h : ¬Valid s s.pc) :
    step s = .next (faultEntry s .outOfBounds s.pc) :=
  step_of_fetch_error hr hb (fetch_of_not_valid h)

/-- Settles O9: both clauses are what a step below the limit does, at a word and at no cell. -/
theorem fetchReadsTheCellAtPcOrFaults : Obligations.FetchReadsTheCellAtPcOrFaults := by
  intro s hr hb
  exact ⟨fun raw hw => step_eq_blockWord ⟨hr, hb, hw⟩, step_of_pc_not_valid hr hb⟩

/-! ### The watchdog -/

theorem not_belowLimit_iff (s : State) : ¬BelowLimit s ↔ ∃ n, s.cfg.maxSteps = some n ∧ n ≤ s.steps := by
  simp only [BelowLimit, not_forall, exists_prop, not_lt]

theorem blockStep_of_below (h : BelowLimit s) : blockStep s = blockRead s s.pc fun raw => blockWord s raw := by
  unfold blockStep
  cases hn : s.cfg.maxSteps with
  | none => rfl
  | some n => exact if_neg (not_le.mpr (h n hn))

theorem blockStep_at_limit {n : Nat} (hn : s.cfg.maxSteps = some n) (hle : n ≤ s.steps) :
    blockStep s = faultEntry s .stepLimitExceeded s.steps := by
  simp only [blockStep, hn]
  exact if_pos hle

theorem step_at_limit {n : Nat} (hr : s.run = .running) (hn : s.cfg.maxSteps = some n) (hle : n ≤ s.steps) :
    step s = .next (faultEntry s .stepLimitExceeded s.steps) :=
  step_of_trap hr ((nextInstr_eq_error_iff s _).mpr
    (.inl ((watchdog_eq_error_iff s ⟨.stepLimitExceeded, s.steps⟩).mpr ⟨n, hn, hle, rfl⟩)))

/-- Settles O33: at the limit both are the watchdog's fault; below it both read the cell at `pc`, and at a word
`step_eq_blockWord` says the rest. -/
theorem stepIsTheSpecsBlock : Obligations.StepIsTheSpecsBlock := by
  intro s hr
  by_cases hb : BelowLimit s
  · rw [blockStep_of_below hb]
    by_cases hpc : Valid s s.pc
    · obtain ⟨raw, hw⟩ := exists_cellAt_of_valid hpc
      rw [blockRead_of_cell hw, step_eq_blockWord ⟨hr, hb, hw⟩]
    · rw [blockRead_of_not_valid hpc, step_of_pc_not_valid hr hb hpc]
  · obtain ⟨n, hn, hle⟩ := (not_belowLimit_iff s).mp hb
    rw [blockStep_at_limit hn hle, step_at_limit hr hn hle]

/-! ### The parameter words -/

/-- Settles O8: from a valid `pc` the cells that are fetched are the rest of memory. -/
theorem stepRunsTheDecodedInstruction : Obligations.StepRunsTheDecodedInstruction := by
  intro s i hr hb hpc hd
  have hcells : cellsFrom s.M s.pc = s.M.drop s.pc.toNat := if_neg (not_lt.mpr hpc.1)
  have hfetch : fetch s = .ok i := by rwa [fetch_eq_ok_iff, hcells]
  exact step_of_instr hr ((nextInstr_of_below hb).trans hfetch)

/-- With fewer cells than the opcode's length, the first one missing is what decoding reports (R75). -/
theorem decode_of_short {args : List Int} (hop : decodeOpcode raw = some op) (h : args.length + 1 < op.length) :
    decode (raw :: args) = .error (.missingCell (args.length + 1)) := by
  cases hd : decode (raw :: args) with
  | ok i =>
    obtain ⟨hi, hlen, -⟩ := decodingReadsExactlyTheInstructionsCells raw args [] i hd
    cases hop.symm.trans hi
    exact absurd hlen (not_le.mpr h)
  | error e =>
    rw [decode_cons_of_opcode hop] at hd
    rw [decodeArgs_error hd]

theorem fetch_of_short {k : Nat} (hw : cellAt s.M s.pc = some raw) (hop : decodeOpcode raw = some op)
    (hk : k < op.length) (hlast : Valid s (s.pc + k - 1)) (hmiss : ¬Valid s (s.pc + k)) :
    fetch s = .error ⟨.outOfBounds, s.pc + k⟩ := by
  obtain ⟨args, hc⟩ := exists_cellsFrom_cons hw
  have hlen : args.length + 1 = k := by
    have h := cellsFrom_length (valid_of_cellAt hw)
    rw [hc, List.length_cons] at h
    unfold Valid at hlast hmiss
    omega
  simp only [fetch, hc, decode_of_short hop (hlen.trans_lt hk), hlen, decodeTrap]

/-- Settles O11: the cells that can be fetched end before the first parameter word that is not there, and HALT
needs none. -/
theorem instructionThatDoesNotFitFaults : Obligations.InstructionThatDoesNotFitFaults := by
  intro s raw op hready hop
  constructor
  · intro k _ hk hlast hmiss
    obtain ⟨hr, hb, hw⟩ := hready
    exact step_of_fetch_error hr hb (fetch_of_short hw hop hk hlast hmiss)
  · rintro rfl
    exact step_of_fetchArgs (i := .halt) hready hop rfl

end Sys2Proof.Machine
end

section
/-! Proofs about what each instruction does with its operands: the stores, the jumps, the advance of `pc` and an
operand that cannot be resolved (spec/40_execution_cycle.md R76 to R80, R123). -/

namespace Sys2Proof.Machine

variable {s : State} {i : Instr} {f : Trap} {a b : Operand} {x y : Int}

/-! ### The stores -/

/-- Settles O13: the sum and the product are the values the instructions store. -/
theorem arithmeticStoresTheExactResult : Obligations.ArithmeticStoresTheExactResult := by
  intro a b d s x y hx hy hd
  exact ⟨exec_of_storedValue (i := .add a b d) rfl ⟨x, y, hx, hy, rfl⟩ hd,
    exec_of_storedValue (i := .mul a b d) rfl ⟨x, y, hx, hy, rfl⟩ hd⟩

/-- Settles O14: the truth value of the comparison is the value the instruction stores. -/
theorem comparisonStoresOneOrZero : Obligations.ComparisonStoresOneOrZero := by
  intro a b d s x y hx hy hd
  exact ⟨exec_of_storedValue (i := .lt a b d) rfl ⟨x, y, hx, hy, rfl⟩ hd,
    exec_of_storedValue (i := .eq a b d) rfl ⟨x, y, hx, hy, rfl⟩ hd⟩

/-! ### The jumps -/

/-- A jump with both operands resolved makes one assignment to `pc` and is counted. -/
theorem exec_of_jumpWhen {p : Int → Bool} (hb : body i s = jumpWhen p a b s) (hx : HasValue s a x)
    (hy : HasValue s b y) :
    exec i s = .next { s with pc := if p x then y else s.pc + 3, steps := s.steps + 1 } := by
  have hjump := hb.trans ((jumpWhen_eq_ok_iff p a b s _).mpr ⟨x, y, hx, hy, rfl⟩)
  rw [exec_eq_conclude_body, hjump, conclude_eq_concluded, concluded_jump]

/-- Settles O17: JNZ is taken where its condition is not 0, JZ where it is. -/
theorem jumpAssignsPcExactlyOnce : Obligations.JumpAssignsPcExactlyOnce := by
  intro a b s x y hx hy
  constructor
  · rw [exec_of_jumpWhen (i := .jnz a b) rfl hx hy]
    simp only [nonZero, bne_iff_ne]
  · rw [exec_of_jumpWhen (i := .jz a b) (p := fun x => !nonZero x) rfl hx hy]
    simp only [nonZero, bne, Bool.not_not, beq_iff_eq]

/-- A counted jump to an address that is not valid: the next step, if the limit lets it, faults at the fetch. -/
theorem step_after_jump_of_not_valid (hr : s.run = .running)
    (hlim : ∀ n, s.cfg.maxSteps = some n → s.steps + 1 < n) (hy : ¬Valid s y) :
    step { s with pc := y, steps := s.steps + 1 } =
      .next (faultEntry { s with pc := y, steps := s.steps + 1 } .outOfBounds y) :=
  step_of_pc_not_valid hr hlim hy

/-- Settles O28: the taken jump assigns its target unchecked, and the fetch after it is of that address. -/
theorem jumpOutsideMemoryFaultsAtTheNextFetch : Obligations.JumpOutsideMemoryFaultsAtTheNextFetch := by
  intro s a b x y hr hlim hx hy hv
  obtain ⟨hjnz, hjz⟩ := jumpAssignsPcExactlyOnce a b s x y hx hy
  have hnext := step_after_jump_of_not_valid hr hlim hv
  constructor
  · intro hne
    rw [if_pos hne] at hjnz
    exact ⟨_, hjnz, rfl, rfl, hnext⟩
  · intro h0
    rw [if_pos h0] at hjz
    exact ⟨_, hjz, rfl, rfl, hnext⟩

/-! ### The advance of `pc` -/

theorem body_ok_pc {u : State} (hjnz : i.opcode ≠ .jnz) (hjz : i.opcode ≠ .jz) (h : body i s = .ok u) :
    u.pc = if i = .halt then s.pc else s.pc + i.length := by
  rcases body_ok_cases h with ⟨d, w, hd, -, -, rfl⟩ | ⟨o, v, rfl, -, rfl⟩ | ⟨hj | hj, -⟩ | ⟨rfl, rfl⟩
  · have hne : i ≠ .halt := by
      rintro rfl
      cases hd
    rw [if_neg hne]
    rfl
  · rfl
  · exact absurd hj hjnz
  · exact absurd hj hjz
  · rfl

/-- Settles O19: a fault does not count, and an instruction that completes has advanced as `body_ok_pc` says. -/
theorem nonJumpAdvancesByItsLength : Obligations.NonJumpAdvancesByItsLength := by
  intro i s t hjnz hjz hexec hcount
  rcases exec_cases hexec with ⟨u, hu, rfl⟩ | ⟨f, -, rfl⟩
  · exact body_ok_pc (u := u) hjnz hjz hu
  · exact absurd hcount (Nat.succ_ne_self s.steps).symm

/-! ### Operands that cannot be resolved -/

theorem body_of_resolveTwo_error (hi : i.reads = [a, b]) (h : resolveTwo a b s = .error f) :
    body i s = .error f := by
  cases i with
  | add a b d | mul a b d | lt a b d | eq a b d =>
    cases hi
    simp only [body, storeResult_eq_error_iff]
    exact .inl h
  | jnz a b | jz a b =>
    cases hi
    simpa only [body, jumpWhen_eq_error_iff] using h
  | input d | output a | halt => cases hi

theorem body_of_first_read_error {rest : List Operand} (hi : i.reads = a :: rest) (h : resolve a s = .error f) :
    body i s = .error f := by
  cases i with
  | add a b d | mul a b d | lt a b d | eq a b d | jnz a b | jz a b =>
    cases hi
    exact body_of_resolveTwo_error rfl ((resolveTwo_eq_error_iff a b s f).mpr (.inl h))
  | output a =>
    cases hi
    simp only [body, h]
    rfl
  | input d | halt => cases hi

/-- Settles O24: resolving the operand raises the fault, before the instruction does anything else. -/
theorem unresolvableOperandFaults : Obligations.UnresolvableOperandFaults := by
  intro i s raw f hw
  constructor
  · intro a rest hi hf
    exact exec_of_body_error (body_of_first_read_error hi ((resolve_eq_error_iff hw a f).mpr hf))
  · intro a b x hi hx hf
    have hb : resolve b s = .error f := (resolve_eq_error_iff hw b f).mpr hf
    exact exec_of_body_error
      (body_of_resolveTwo_error hi ((resolveTwo_eq_error_iff a b s f).mpr (.inr ⟨⟨x, hx⟩, hb⟩)))

end Sys2Proof.Machine
end

section
/-! Proofs about a run as a sequence of steps: when a step is enabled, the count, and the execution loop
(spec/40_execution_cycle.md R70, R71, R81, R82, spec/70_reset_and_hazards.md R163). -/

namespace Sys2Proof.Machine

variable {s t u : State}

/-! ### One step -/

theorem exists_step_iff (s : State) : (∃ t, step s = .next t) ↔ s.run = .running := by
  constructor
  · rintro ⟨t, h⟩
    exact (step_cases h).1
  · intro hr
    exact ⟨blockStep s, stepIsTheSpecsBlock s hr⟩

/-- Settles O34: the fault that is taken is a fault entry, and the instruction that completes is counted. -/
theorem stepIsEnabledExactlyInRunning : Obligations.StepIsEnabledExactlyInRunning := by
  refine ⟨exists_step_iff, fun s t h => ?_⟩
  obtain ⟨hr, ⟨f, -, rfl⟩ | ⟨i, u, -, hu, rfl⟩⟩ := step_raises_or_completes h
  · exact .inr ⟨f.cause, f.info, rfl⟩
  · obtain ⟨-, -, -, -, hsteps⟩ := body_ok_frame hu
    exact .inl ⟨body_ok_run_ne_faulted (u := u) hr hu, congrArg (· + 1) hsteps⟩

theorem step_steps (h : step s = .next t) :
    (t.run ≠ .faulted → t.steps = s.steps + 1) ∧ (t.run = .faulted → t.steps = s.steps) := by
  rcases stepIsEnabledExactlyInRunning.2 s t h with ⟨hrun, hsteps⟩ | ⟨c, v, rfl⟩
  · exact ⟨fun _ => hsteps, fun hf => absurd hf hrun⟩
  · exact ⟨fun hrun => absurd rfl hrun, fun _ => rfl⟩

/-! ### `k` steps -/

theorem core_run_succ {k : Nat} (h : Host.Core.run Sys2Proof.core (k + 1) s = .next t) :
    ∃ u, step s = .next u ∧ Host.Core.run Sys2Proof.core k u = .next t := by
  have hstep : Sys2Proof.core.step s = step s := rfl
  simp only [Host.Core.run, hstep] at h
  split at h
  · rename_i u hu
    exact ⟨u, hu, h⟩
  · cases h
  · cases h

theorem core_run_faulted {k : Nat} (hs : s.run = .faulted) (h : Host.Core.run Sys2Proof.core k s = .next t) :
    t.run = .faulted := by
  cases k with
  | zero =>
    cases h
    exact hs
  | succ k =>
    obtain ⟨u, hu, -⟩ := core_run_succ h
    have hr := (exists_step_iff s).mp ⟨u, hu⟩
    cases hs.symm.trans hr

/-- Where `k` steps have not ended in a fault, none of them was one. -/
theorem core_run_steps {k : Nat} (ht : t.run ≠ .faulted) (h : Host.Core.run Sys2Proof.core k s = .next t) :
    t.steps = s.steps + k := by
  induction k generalizing s with
  | zero =>
    cases h
    rfl
  | succ k ih =>
    obtain ⟨u, hu, hrun⟩ := core_run_succ h
    have hcount : u.steps = s.steps + 1 := (step_steps hu).1 fun hf => ht (core_run_faulted hf hrun)
    rw [ih hrun, hcount, Nat.add_assoc, Nat.add_comm 1 k]

/-- Settles O36: the count of one step, and by induction that of a run that halts. -/
theorem everyCompletedInstructionIsCounted : Obligations.EveryCompletedInstructionIsCounted := by
  refine ⟨fun s t h => step_steps h, fun k s t h ht _ => core_run_steps ?_ h⟩
  rw [ht]
  decide

/-! ### The execution loop -/

theorem reaches_of_step (h : step s = .next u) (hut : Reaches u t) : Reaches s t := by
  induction hut with
  | refl => exact .step (.refl s) h
  | step _ hstep ih => exact .step ih hstep

theorem runEnd_eq_halted_iff (s t : State) : runEnd s = .halted t ↔ s = t ∧ s.run = .halted := by
  cases h : s.run <;> simp [runEnd, h]

theorem runEnd_eq_faulted_iff (s t : State) : runEnd s = .faulted t ↔ s = t ∧ s.run = .faulted := by
  cases h : s.run <;> simp [runEnd, h]

theorem runLoop_succ_of_step (h : step s = .next u) (n : Nat) : runLoop (n + 1) s = runLoop n u := by
  simp only [runLoop, h]

theorem runLoop_of_ended (h : s.run ≠ .running) (n : Nat) : runLoop n s = runEnd s := by
  cases n with
  | zero => rfl
  | succ n =>
    unfold runLoop
    split
    · rename_i t ht
      exact absurd ((exists_step_iff s).mp ⟨t, ht⟩) h
    · rfl
    · rfl

/-- The state a loop has come to is reached by steps, and where it has ended more fuel does not lead on. -/
theorem runLoop_reaches (n : Nat) (s : State) : ∃ t, Reaches s t ∧ runLoop n s = runEnd t ∧
    (t.run ≠ .running → ∀ m, n ≤ m → runLoop m s = runEnd t) := by
  induction n generalizing s with
  | zero => exact ⟨s, .refl s, rfl, fun h m _ => runLoop_of_ended h m⟩
  | succ n ih =>
    by_cases hr : s.run = .running
    · obtain ⟨u, hu⟩ := (exists_step_iff s).mpr hr
      obtain ⟨t, hut, hn, hmore⟩ := ih u
      refine ⟨t, reaches_of_step hu hut, (runLoop_succ_of_step hu n).trans hn, fun h m hle => ?_⟩
      obtain ⟨m, rfl⟩ := Nat.exists_eq_add_of_le' (Nat.le_of_add_left_le hle)
      exact (runLoop_succ_of_step hu m).trans (hmore h m (Nat.le_of_succ_le_succ hle))
    · exact ⟨s, .refl s, runLoop_of_ended hr _, fun h m _ => runLoop_of_ended h m⟩

/-- Settles O49: the loop has come to one state, whose run-state register says how it has ended. -/
theorem finishedRunDoesNotDependOnTheFuel : Obligations.FinishedRunDoesNotDependOnTheFuel := by
  intro n m s t hle
  obtain ⟨v, hsv, hn, hmore⟩ := runLoop_reaches n s
  rw [hn]
  constructor
  · intro h
    obtain ⟨rfl, hv⟩ := (runEnd_eq_halted_iff v t).mp h
    exact ⟨(hmore (by rw [hv]; decide) m hle).trans h, hsv, hv⟩
  · intro h
    obtain ⟨rfl, hv⟩ := (runEnd_eq_faulted_iff v t).mp h
    exact ⟨(hmore (by rw [hv]; decide) m hle).trans h, hsv, hv⟩

end Sys2Proof.Machine
end

section
/-! Proofs that the operands of ADD and of MUL commute (spec/41_arithmetic.md R92): the order of the two read
parameters shows only in which of two faults is raised. -/

namespace Sys2Proof.Machine

variable {s : State} {i j : Instr} {f : Trap} {a b : Operand} {x : Int}

theorem not_hasValue_of_resolve_error (h : resolve a s = .error f) (x : Int) : ¬HasValue s a x := by
  rw [← resolve_eq_ok_iff, h]
  exact nofun

theorem exec_of_first_read_error {rest : List Operand} (hi : i.reads = a :: rest) (h : resolve a s = .error f) :
    exec i s = .next (faultEntry s f.cause f.info) :=
  exec_of_body_error (body_of_first_read_error hi h)

/-- Where one of two operands has a value, the fault of the other is raised in either order. -/
theorem exec_swap_of_one_error (hi : i.reads = [a, b]) (hj : j.reads = [b, a]) (hx : HasValue s a x)
    (hb : resolve b s = .error f) : exec i s = exec j s := by
  have hab : resolveTwo a b s = .error f := (resolveTwo_eq_error_iff a b s f).mpr (.inr ⟨⟨x, hx⟩, hb⟩)
  rw [exec_of_body_error (body_of_resolveTwo_error hi hab),
    exec_of_body_error (body_of_first_read_error hj hb)]

/-- Two instructions of one length that store one value to one destination have the same outcome. -/
theorem exec_eq_of_storedValue {d w : Int} (hi : i.dest = some d) (hj : j.dest = some d)
    (hlen : i.length = j.length) (hiw : StoredValue s i w) (hjw : StoredValue s j w) : exec i s = exec j s := by
  rw [exec_eq_conclude_body, exec_eq_conclude_body, body_of_storedValue hi hiw, body_of_storedValue hj hjw, hlen]

/-- Settles O22: two values have one sum and one product; a single fault is raised in either order; of two faults
the first parameter's is raised. -/
theorem arithmeticOperandsCommute : Obligations.ArithmeticOperandsCommute := by
  intro a b d s
  cases ha : resolve a s with
  | ok x =>
    have hx := (resolve_eq_ok_iff a s x).mp ha
    left
    cases hb : resolve b s with
    | ok y =>
      have hy := (resolve_eq_ok_iff b s y).mp hb
      exact ⟨exec_eq_of_storedValue rfl rfl rfl ⟨x, y, hx, hy, rfl⟩ ⟨y, x, hy, hx, Int.add_comm x y⟩,
        exec_eq_of_storedValue rfl rfl rfl ⟨x, y, hx, hy, rfl⟩ ⟨y, x, hy, hx, Int.mul_comm x y⟩⟩
    | error g => exact ⟨exec_swap_of_one_error rfl rfl hx hb, exec_swap_of_one_error rfl rfl hx hb⟩
  | error f =>
    cases hb : resolve b s with
    | ok y =>
      have hy := (resolve_eq_ok_iff b s y).mp hb
      exact .inl ⟨(exec_swap_of_one_error rfl rfl hy ha).symm, (exec_swap_of_one_error rfl rfl hy ha).symm⟩
    | error g =>
      exact .inr ⟨not_hasValue_of_resolve_error ha, not_hasValue_of_resolve_error hb,
        ⟨f.cause, f.info, exec_of_first_read_error rfl ha, exec_of_first_read_error rfl ha⟩,
        ⟨g.cause, g.info, exec_of_first_read_error rfl hb, exec_of_first_read_error rfl hb⟩⟩

end Sys2Proof.Machine
end

section
/-! Proofs about IN without a pending input (spec/42_io.md R95, spec/60_exceptions.md R121). -/

namespace Sys2Proof.Machine

/-- Settles O26: without an input the body of IN raises NoInput with the word at `pc`, whatever its destination. -/
theorem inWithoutInputFaults : Obligations.InWithoutInputFaults := by
  intro s raw d hw hin
  have hb : body (.input d) s = .error ⟨.noInput, raw⟩ := by
    simp only [body, hin, raiseWithWord_of_word hw]
  exact exec_of_body_error hb

end Sys2Proof.Machine
end

section
/-! Proofs about the comparisons of two operands (spec/44_compare.md R105 to R107): LT either way round and EQ store
the three cases of the order of the integers. -/

namespace Sys2Proof.Machine

variable {s : State} {i : Instr}

theorem exec_stores_of_storedValue {d w : Int} (hi : i.dest = some d) (hw : StoredValue s i w) (hd : Valid s d) :
    ∃ t, exec i s = .next t ∧ cellAt t.M d = some w :=
  ⟨_, exec_of_storedValue hi hw hd, cellAt_set_self hd w⟩

/-- Settles O23: each instruction stores the truth value of its comparison, and the order of the integers is
trichotomous. -/
theorem exactlyOneComparisonStoresOne : Obligations.ExactlyOneComparisonStoresOne := by
  intro a b d s x y hx hy hd
  obtain ⟨t1, hlt, hr1⟩ := exec_stores_of_storedValue (i := .lt a b d) rfl ⟨x, y, hx, hy, rfl⟩ hd
  obtain ⟨t2, heq, hr2⟩ := exec_stores_of_storedValue (i := .eq a b d) rfl ⟨x, y, hx, hy, rfl⟩ hd
  obtain ⟨t3, hgt, hr3⟩ := exec_stores_of_storedValue (i := .lt b a d) rfl ⟨y, x, hy, hx, rfl⟩ hd
  refine ⟨t1, t2, t3, _, _, _, hlt, heq, hgt, hr1, hr2, hr3, ?_⟩
  obtain h | h | h := lt_trichotomy x y
  · exact .inl ⟨if_pos h, if_neg h.ne, if_neg h.not_gt⟩
  · exact .inr (.inl ⟨if_neg h.not_lt, if_pos h, if_neg h.not_gt⟩)
  · exact .inr (.inr ⟨if_neg h.not_gt, if_neg h.ne', if_pos h⟩)

end Sys2Proof.Machine
end

section
/-! Proofs about HALT: what it does, the words that are it, and that nothing else leads into `Halted`
(spec/45_halt.md R110, R111). -/

namespace Sys2Proof.Machine

variable {s t : State} {raw : Int}

theorem exec_halt (s : State) : exec .halt s = .next { s with run := .halted, steps := s.steps + 1 } :=
  exec_of_body_ok (u := enterHalted s) rfl

theorem step_of_halt_word (h : Ready s raw) (hop : decodeOpcode raw = some .halt) :
    step s = .next { s with run := .halted, steps := s.steps + 1 } :=
  (step_of_fetchArgs (i := .halt) h hop rfl).trans (exec_halt s)

theorem step_of_negative_word (h : Ready s raw) (hneg : raw < 0) :
    step s = .next (faultEntry s .unknownOpcode raw) := by
  have hop : decodeOpcode raw = none := if_pos hneg
  rw [step_eq_blockWord h, blockWord_of_no_opcode hop]

/-- Settles O18: HALT has no parameter word, so at its word it is executed whatever follows, and a negative word
has no opcode. -/
theorem haltEndsTheRun : Obligations.HaltEndsTheRun := by
  refine ⟨exec_halt, fun s raw h h0 h99 => ?_, fun s raw h hneg => step_of_negative_word h hneg⟩
  exact step_of_halt_word h ((decodeOpcode_eq_some_iff_code raw .halt).mpr ⟨h0, h99⟩)

/-- A step into `Halted` takes no fault and completes no other instruction: the others keep `Running`. -/
theorem step_halted_cases (h : step s = .next t) (ht : t.run = .halted) :
    ∃ raw, cellAt s.M s.pc = some raw ∧ decodeOpcode raw = some .halt ∧ t = countStep (enterHalted s) := by
  obtain ⟨hr, ⟨f, -, rfl⟩ | ⟨i, u, hi, hu, rfl⟩⟩ := step_raises_or_completes h
  · cases ht
  · have hhalt : i.opcode = .halt := by
      by_contra hne
      cases hr.symm.trans ((body_ok_run hu hne).symm.trans ht)
    obtain ⟨-, hfetch⟩ := (nextInstr_eq_ok_iff s i).mp hi
    obtain ⟨raw, -, hw, hop, -⟩ := fetch_ok_word hfetch
    rw [hhalt] at hop
    exact ⟨raw, hw, hop, congrArg countStep (body_halt_of_opcode hu hhalt)⟩

/-- Settles O39: the instruction that leads into `Halted` is HALT, which writes `run` and is counted. -/
theorem onlyAHaltWordLeadsIntoHalted : Obligations.OnlyAHaltWordLeadsIntoHalted := by
  intro s t h ht
  obtain ⟨raw, hw, hop, rfl⟩ := step_halted_cases h ht
  exact ⟨⟨raw, hw, (decodeOpcode_eq_some_iff_code raw .halt).mp hop⟩, rfl, rfl, rfl⟩

end Sys2Proof.Machine
end

section
/-! Proofs about the faults: the causes each instruction can raise, and the fault entry (spec/60_exceptions.md R122,
R124). -/

namespace Sys2Proof.Machine

variable {s t : State} {i : Instr} {f : Trap} {o a b : Operand} {d : Int}

/-! ### The causes of an instruction -/

theorem wellFormed_eq_false_of_mem_reads (ho : o ∈ i.reads) (hl : o.legal = false) : i.wellFormed = false :=
  List.all_eq_false.mpr ⟨o, ho, Bool.eq_false_iff.mp hl⟩

theorem read_error_cause (ho : o ∈ i.reads) (h : resolve o s = .error f) :
    f.cause = .outOfBounds ∨ (f.cause = .unknownMode ∧ i.wellFormed = false) :=
  (resolve_cause h).imp_right (And.imp_right (wellFormed_eq_false_of_mem_reads ho))

theorem two_reads_error_cause (hi : i.reads = [a, b]) (h : resolveTwo a b s = .error f) :
    f.cause = .outOfBounds ∨ (f.cause = .unknownMode ∧ i.wellFormed = false) := by
  rcases (resolveTwo_eq_error_iff a b s f).mp h with ha | ⟨-, hb⟩
  · exact read_error_cause (by simp [hi]) ha
  · exact read_error_cause (by simp [hi]) hb

/-- Whether or not the cell at `pc` can be read for the information value: the cause is of a read parameter or of
the destination. -/
theorem body_error_cause (h : body i s = .error f) (hin : i.opcode ≠ .input) :
    f.cause = .outOfBounds ∨ (f.cause = .unknownMode ∧ i.wellFormed = false) := by
  cases i with
  | add a b d | mul a b d | lt a b d | eq a b d =>
    simp only [body, storeResult_eq_error_iff] at h
    rcases h with hr | ⟨-, -, rfl⟩
    · exact two_reads_error_cause rfl hr
    · exact .inl rfl
  | jnz a b | jz a b =>
    simp only [body, jumpWhen_eq_error_iff] at h
    exact two_reads_error_cause rfl h
  | output a =>
    simp only [body] at h
    cases hx : resolve a s with
    | ok x => rw [hx] at h; cases h
    | error g =>
      rw [hx] at h
      cases h
      exact read_error_cause (List.mem_singleton_self a) hx
  | input d => exact absurd rfl hin
  | halt => cases h

theorem body_input_error_cause (h : body (.input d) s = .error f) :
    f.cause = .outOfBounds ∨ (f.cause = .noInput ∧ s.inp = none) := by
  simp only [body] at h
  split at h
  · rename_i hv
    exact (raiseWithWord_cause h).symm.imp_right (⟨·, hv⟩)
  · rename_i v hv
    by_cases hd : Valid s d
    · rw [memWrite_of_valid hd] at h
      cases h
    · rw [memWrite_of_not_valid hd] at h
      cases h
      exact .inl rfl

/-- An instruction that completes keeps `run` or halts, so a new `Faulted` is a fault taken. -/
theorem exec_faulted (hs : s.run ≠ .faulted) (h : exec i s = .next t) (ht : t.run = .faulted) :
    ∃ f, body i s = .error f ∧ t = takeFault f s := by
  rcases exec_cases h with ⟨u, hu, rfl⟩ | hf
  · by_cases hi : i.opcode = .halt
    · rw [body_halt_of_opcode hu hi] at ht
      cases ht
    · exact absurd ((body_ok_run hu hi).symm.trans ht) hs
  · exact hf

/-- Settles O27: the fault that is taken was raised by the instruction, whose opcode says what its cause can be. -/
theorem causesEachInstructionCanRaise : Obligations.CausesEachInstructionCanRaise := by
  intro i s t hs h ht
  obtain ⟨f, hf, rfl⟩ := exec_faulted hs h ht
  cases i with
  | halt => cases hf
  | input d => exact (body_input_error_cause hf).imp (congrArg some) (And.imp_left (congrArg some))
  | add | mul | output | jnz | jz | lt | eq =>
    exact (body_error_cause hf nofun).imp (congrArg some) (And.imp_left (congrArg some))

/-! ### Fault entry -/

/-- Settles O35: an instruction that completes does not end in `Faulted`, and there no step is enabled. -/
theorem faultEntryChangesNothingElse : Obligations.FaultEntryChangesNothingElse := by
  intro s t h ht
  constructor
  · rcases stepIsEnabledExactlyInRunning.2 s t h with ⟨hrun, -⟩ | hentry
    · exact absurd ht hrun
    · exact hentry
  · intro u hu
    cases ht.symm.trans ((exists_step_iff t).mp ⟨u, hu⟩)

end Sys2Proof.Machine
end

section
/-! Proofs about the watchdog: it lets as many instructions complete as its limit says, so under a limit every run
ends (spec/60_exceptions.md R126, spec/70_reset_and_hazards.md R149, R163). -/

namespace Sys2Proof.Machine

variable {s t : State} {f : Trap}

/-! ### The limit -/

theorem raises_of_step_faulted (h : step s = .next t) (ht : t.run = .faulted) :
    ∃ f, Raises s f ∧ t = takeFault f s := by
  obtain ⟨hr, hf | ⟨i, u, -, hu, rfl⟩⟩ := step_raises_or_completes h
  · exact hf
  · exact absurd ht (body_ok_run_ne_faulted (u := u) hr hu)

theorem not_belowLimit_of_raises (h : Raises s f) (hc : f.cause = .stepLimitExceeded) : ¬BelowLimit s := by
  have ht := raises_trapTrue h
  simp only [TrapTrue, hc] at ht
  obtain ⟨n, hn, hle, -⟩ := ht
  exact (not_belowLimit_iff s).mpr ⟨n, hn, hle⟩

theorem reaches_inv (h : Reaches s t) (hs : s.Inv) : t.Inv := by
  induction h with
  | refl => exact hs
  | step _ hstep ih => exact stepKeepsTheInvariant _ _ ih hstep

theorem launched_reaches_inv {cfg : Config} {p : Cells} {ov : Option Override} {iv : Option Int}
    (h : Reaches (launched cfg p ov iv) t) : t.Inv ∧ t.cfg = cfg := by
  obtain ⟨-, -, hcfg, -⟩ := runKeepsProgramInputAndExtent _ t h
  exact ⟨reaches_inv h (launchMeetsTheInvariant cfg p ov iv), hcfg.trans (launched_program cfg p ov iv).2⟩

/-- Settles O37: only the watchdog raises the cause, it does so at the limit and not below, and the invariant bounds
the count. -/
theorem watchdogAllowsExactlyTheLimit : Obligations.WatchdogAllowsExactlyTheLimit := by
  refine ⟨fun s v hb h => ?_, fun s n hr hn hle => step_at_limit hr hn hle, fun cfg n p ov iv t hn h => ?_⟩
  · obtain ⟨f, hf, heq⟩ := raises_of_step_faulted h rfl
    have hc : f.cause = .stepLimitExceeded := (Option.some.inj (congrArg State.fcause heq)).symm
    exact not_belowLimit_of_raises hf hc hb
  · obtain ⟨⟨-, hlim, -⟩, hcfg⟩ := launched_reaches_inv h
    exact hlim n (hcfg ▸ hn)

/-! ### The execution loop under a limit -/

theorem runEnd_eq_notFinished_iff (s t : State) : runEnd s = .notFinished t ↔ s = t ∧ s.run = .running := by
  cases h : s.run <;> simp [runEnd, h]

theorem running_of_runLoop_notFinished {n : Nat} (h : runLoop n s = .notFinished t) : s.run = .running := by
  by_contra hr
  obtain ⟨-, hrun⟩ := (runEnd_eq_notFinished_iff s t).mp ((runLoop_of_ended hr n).symm.trans h)
  exact hr hrun

/-- Where the fuel has run out, each unit of it has completed an instruction. -/
theorem runLoop_notFinished_steps {n : Nat} (h : runLoop n s = .notFinished t) :
    Reaches s t ∧ t.steps = s.steps + n := by
  induction n generalizing s with
  | zero =>
    obtain ⟨rfl, -⟩ := (runEnd_eq_notFinished_iff s t).mp h
    exact ⟨.refl s, rfl⟩
  | succ n ih =>
    obtain ⟨u, hu⟩ := (exists_step_iff s).mpr (running_of_runLoop_notFinished h)
    rw [runLoop_succ_of_step hu] at h
    obtain ⟨hut, hsteps⟩ := ih h
    have hrun : u.run ≠ .faulted := by simp [running_of_runLoop_notFinished h]
    have hcount : u.steps = s.steps + 1 := (step_steps hu).1 hrun
    exact ⟨reaches_of_step hu hut, by omega⟩

/-- Settles O50: a run not finished would have completed `n + 1` instructions, one more than the limit allows. -/
theorem watchdogEndsEveryRun : Obligations.WatchdogEndsEveryRun := by
  intro cfg n p ov iv t hn h
  obtain ⟨hreach, hsteps⟩ := runLoop_notFinished_steps h
  obtain ⟨-, -, hmax⟩ := watchdogAllowsExactlyTheLimit
  have hle : t.steps ≤ n := hmax cfg n p ov iv t hn hreach
  omega

end Sys2Proof.Machine
end

section
/-! Proofs about a launch with an override: the cells it writes, and the fault it takes on a short program
(spec/70_reset_and_hazards.md R143). -/

namespace Sys2Proof.Machine

variable {s : State}

/-- With cell 1 the last one, the override writes it and then faults (R143). -/
theorem applyOverride_of_length_eq_two (h : s.M.length = 2) (ov : Override) :
    applyOverride ov s = takeFault ⟨.outOfBounds, 2⟩ (setCell 1 ov.noun s) := by
  have h1 : Valid s 1 := by unfold Valid; omega
  have h2 : ¬Valid (setCell 1 ov.noun s) 2 := by
    simp only [Valid, setCell_M, List.length_set]
    omega
  rw [applyOverride_of_valid h1, launchWrite_of_not_valid h2]

theorem applyOverride_of_length_lt_two (h : s.M.length < 2) (ov : Override) :
    applyOverride ov s = takeFault ⟨.outOfBounds, 1⟩ s :=
  applyOverride_of_not_valid (by unfold Valid; omega) ov

theorem applyOverride_run_of_length_lt_three (h : s.M.length < 3) (ov : Override) :
    (applyOverride ov s).run = .faulted := by
  obtain h | h : s.M.length < 2 ∨ s.M.length = 2 := by omega
  · rw [applyOverride_of_length_lt_two h]
    rfl
  · rw [applyOverride_of_length_eq_two h]
    rfl

/-- Settles O46: each length has its equation of the override, and no step is enabled in `Faulted`. -/
theorem overrideWritesCellsOneAndTwoOrFaults : Obligations.OverrideWritesCellsOneAndTwoOrFaults := by
  intro cfg p noun verb iv
  refine ⟨fun h => applyOverride_of_three_le (s := freshRun cfg p iv) h ⟨noun, verb⟩,
    fun h => applyOverride_of_length_lt_two (s := freshRun cfg p iv) h ⟨noun, verb⟩,
    fun h => applyOverride_of_length_eq_two (s := freshRun cfg p iv) h ⟨noun, verb⟩, fun h t ht => ?_⟩
  have hfaulted := applyOverride_run_of_length_lt_three (s := freshRun cfg p iv) h ⟨noun, verb⟩
  have hrunning := (exists_step_iff (launched cfg p (some ⟨noun, verb⟩) iv)).mp ⟨t, ht⟩
  cases hfaulted.symm.trans hrunning

end Sys2Proof.Machine
end

section
/-! Proofs about what the host can read in each run state (spec/70_reset_and_hazards.md R147, R148, R153). -/

namespace Sys2Proof.Machine

variable {s : State}

/-! ### The reads -/

/-- No result can be read before `Halted` and none in `Faulted` (R147, R148). -/
theorem no_result_of_not_halted (h : s.run ≠ .halted) :
    resultMem0 s = none ∧ resultOut s = none ∧ finalMem s = none ∧ diagnosis s = none := by
  unfold resultMem0 resultOut finalMem diagnosis
  cases hr : s.run with
  | halted => exact absurd hr h
  | running => exact ⟨rfl, rfl, rfl, rfl⟩
  | faulted => exact ⟨rfl, rfl, rfl, rfl⟩

theorem resultMem0_of_halted (h : s.run = .halted) : resultMem0 s = cellAt s.M 0 := by
  simp only [resultMem0, h]

theorem resultOut_of_halted (h : s.run = .halted) :
    resultOut s = some (s.out.elim .noOutput .value) := by
  cases ho : s.out <;> simp only [resultOut, h, ho, Option.elim]

theorem finalMem_of_halted (h : s.run = .halted) : finalMem s = some s.M := by
  simp only [finalMem, h]

theorem diagnosis_of_halted (h : s.run = .halted) : diagnosis s = some (s.pc, s.steps) := by
  simp only [diagnosis, h]

theorem faultRecord_of_not_faulted (h : s.run ≠ .faulted) : faultRecord s = none := by
  unfold faultRecord
  split
  · contradiction
  · rfl

theorem faultRecord_of_faulted {c : Cause} {v pc : Int} (h : s.run = .faulted) (hc : s.fcause = some c)
    (hv : s.finfo = some v) (hpc : s.fpc = some pc) : faultRecord s = some ⟨c, v, pc⟩ := by
  simp only [faultRecord, h, hc, hv, hpc]

/-! ### What the invariant says of an ended run -/

/-- The HALT word stands in a cell, so there is a cell 0 (R147 a). -/
theorem exists_cellAt_zero_of_inv_halted (h : s.Inv) (hr : s.run = .halted) : ∃ v, cellAt s.M 0 = some v := by
  obtain ⟨-, -, hs⟩ := h
  simp only [RunStateInv, hr] at hs
  obtain ⟨-, -, raw, hraw, -⟩ := hs
  obtain ⟨hpc0, hpc⟩ := valid_of_cellAt hraw
  exact exists_cellAt_of_valid ⟨le_rfl, hpc0.trans_lt hpc⟩

theorem hasRecord_of_inv_faulted (h : s.Inv) (hr : s.run = .faulted) : HasRecord s := by
  obtain ⟨-, -, hs⟩ := h
  simpa only [RunStateInv, hr] using hs

/-- Settles O48: in each run state the reads that are valid there give the state's own items, the others nothing. -/
theorem resultsAreThoseOfTheTerminalState : Obligations.ResultsAreThoseOfTheTerminalState := by
  intro s hinv
  refine ⟨fun hr => ?halted, fun hr => ?faulted, fun hr => ?running⟩
  case halted =>
    obtain ⟨v, hv⟩ := exists_cellAt_zero_of_inv_halted hinv hr
    have hout := resultOut_of_halted hr
    exact ⟨⟨v, (resultMem0_of_halted hr).trans hv, hv⟩, finalMem_of_halted hr, fun ho => by rw [hout, ho]; rfl,
      fun w ho => by rw [hout, ho]; rfl, diagnosis_of_halted hr, faultRecord_of_not_faulted (by rw [hr]; decide)⟩
  case faulted =>
    obtain ⟨hmem0, hout, hmem, hdiag⟩ := no_result_of_not_halted (s := s) (by rw [hr]; decide)
    obtain ⟨hc, hv, hpc⟩ := hasRecord_of_inv_faulted hinv hr
    obtain ⟨c, hc⟩ := Option.isSome_iff_exists.mp hc
    obtain ⟨v, hv⟩ := Option.isSome_iff_exists.mp hv
    exact ⟨hmem0, hout, hmem, hdiag, c, v, faultRecord_of_faulted hr hc hv hpc, hc, hv, hpc⟩
  case running =>
    obtain ⟨hmem0, hout, hmem, hdiag⟩ := no_result_of_not_halted (s := s) (by rw [hr]; decide)
    exact ⟨hmem0, hout, hmem, hdiag, faultRecord_of_not_faulted (by rw [hr]; decide)⟩

end Sys2Proof.Machine
end

section
/-! Proofs about the search: it is the first answer of a pair over the list of all pairs, and that list is in the
order of the pairs' codes (spec/70_reset_and_hazards.md R152). -/

namespace Sys2Proof.Machine

variable {fuel : Nat} {cfg : Config} {p : Cells} {target : Int}

/-! ### The pairs -/

/-- The number a pair is encoded as (R152). -/
def pairCode (x : Nat × Nat) : Nat := x.1 * 100 + x.2

theorem mem_searchPairs_iff (x : Nat × Nat) : x ∈ searchPairs ↔ x.1 < 100 ∧ x.2 < 100 := by
  obtain ⟨noun, verb⟩ := x
  simp [searchPairs]

/-- Row-major order is the order of the codes. -/
theorem searchPairs_pairwise : searchPairs.Pairwise fun x y => pairCode x < pairCode y := by
  unfold searchPairs pairCode
  refine List.pairwise_flatMap.mpr ⟨fun noun _ => ?row, ?rows⟩
  case row => exact List.pairwise_map.mpr (List.pairwise_lt_range.imp fun h => Nat.add_lt_add_left h _)
  case rows =>
    refine List.pairwise_lt_range.imp fun hlt x hx y hy => ?_
    simp only [List.mem_map, List.mem_range] at hx hy
    obtain ⟨verb, hverb, rfl⟩ := hx
    obtain ⟨verb', -, rfl⟩ := hy
    dsimp only
    omega

/-- In the list of all pairs those before a pair are those of a smaller code. -/
theorem mem_before_iff {before after : List (Nat × Nat)} {x : Nat × Nat}
    (h : searchPairs = before ++ x :: after) (y : Nat × Nat) :
    y ∈ before ↔ y ∈ searchPairs ∧ pairCode y < pairCode x := by
  have hsorted := searchPairs_pairwise
  rw [h, List.pairwise_append, List.pairwise_cons] at hsorted
  obtain ⟨-, ⟨hafter, -⟩, hbefore⟩ := hsorted
  rw [h]
  constructor
  · intro hy
    exact ⟨List.mem_append_left _ hy, hbefore y hy x List.mem_cons_self⟩
  · rintro ⟨hy, hlt⟩
    rcases List.mem_append.mp hy with hy | hy
    · exact hy
    · rcases List.mem_cons.mp hy with rfl | hy
      · exact absurd hlt (lt_irrefl _)
      · exact absurd (hafter y hy) hlt.asymm

/-! ### The answer of one pair -/

/-- What the search answers at a pair, none where it goes on to the next one. -/
def pairAnswer (fuel : Nat) (cfg : Config) (p : Cells) (target : Int) (x : Nat × Nat) : Option SearchResult :=
  match arithmeticRun fuel cfg p (some ⟨x.1, x.2⟩) with
  | .value v => if v = target then some (.found (pairCode x)) else none
  | .fault r => some (.fault r)
  | .noOutput => some .notFinished
  | .notFinished => some .notFinished
  | .loadRefused => some .loadRefused

theorem pairAnswer_eq_none_iff (x : Nat × Nat) : pairAnswer fuel cfg p target x = none ↔
    ∃ w, w ≠ target ∧ arithmeticRun fuel cfg p (some ⟨x.1, x.2⟩) = .value w := by
  unfold pairAnswer
  cases arithmeticRun fuel cfg p (some ⟨x.1, x.2⟩) <;> simp

theorem pairAnswer_eq_found_iff (x : Nat × Nat) (k : Nat) : pairAnswer fuel cfg p target x = some (.found k) ↔
    k = pairCode x ∧ arithmeticRun fuel cfg p (some ⟨x.1, x.2⟩) = .value target := by
  unfold pairAnswer
  cases arithmeticRun fuel cfg p (some ⟨x.1, x.2⟩) <;> simp [eq_comm, and_comm]

theorem pairAnswer_eq_fault_iff (x : Nat × Nat) (r : FaultRecord) :
    pairAnswer fuel cfg p target x = some (.fault r) ↔
      arithmeticRun fuel cfg p (some ⟨x.1, x.2⟩) = .fault r := by
  unfold pairAnswer
  cases arithmeticRun fuel cfg p (some ⟨x.1, x.2⟩) <;> simp

theorem pairAnswer_ne_notFound (x : Nat × Nat) : pairAnswer fuel cfg p target x ≠ some .notFound := by
  unfold pairAnswer
  cases arithmeticRun fuel cfg p (some ⟨x.1, x.2⟩) <;> simp

/-! ### The search as the first answer -/

theorem searchOver_eq_findSome? (l : List (Nat × Nat)) :
    searchOver fuel cfg p target l = (l.findSome? (pairAnswer fuel cfg p target)).getD .notFound := by
  induction l with
  | nil => rfl
  | cons x l ih =>
    rw [searchOver, List.findSome?_cons, pairAnswer]
    cases arithmeticRun fuel cfg p (some ⟨x.1, x.2⟩) with
    | value v =>
      by_cases h : v = target
      · simp [h, pairCode]
      · simpa [h] using ih
    | _ => rfl

theorem findInputs_eq_notFound_iff : findInputs fuel cfg p target = .notFound ↔
    ∀ x ∈ searchPairs, pairAnswer fuel cfg p target x = none := by
  rw [findInputs, searchOver_eq_findSome?, ← List.findSome?_eq_none_iff]
  cases h : searchPairs.findSome? (pairAnswer fuel cfg p target) with
  | none => simp
  | some r =>
    obtain ⟨x, -, hx⟩ := List.exists_of_findSome?_eq_some h
    simpa using fun hr : r = .notFound => pairAnswer_ne_notFound x (hr ▸ hx)

/-- The search answers what the first pair that has an answer answers. -/
theorem findInputs_eq_iff {r : SearchResult} (hr : r ≠ .notFound) : findInputs fuel cfg p target = r ↔
    ∃ x ∈ searchPairs, pairAnswer fuel cfg p target x = some r ∧
      ∀ y ∈ searchPairs, pairCode y < pairCode x → pairAnswer fuel cfg p target y = none := by
  have hsome : findInputs fuel cfg p target = r ↔
      searchPairs.findSome? (pairAnswer fuel cfg p target) = some r := by
    rw [findInputs, searchOver_eq_findSome?, Option.getD_eq_iff]
    simp [hr.symm]
  rw [hsome, List.findSome?_eq_some_iff]
  constructor
  · rintro ⟨before, x, after, hsplit, hx, hbefore⟩
    have hmem : x ∈ searchPairs := hsplit ▸ List.mem_append_right before List.mem_cons_self
    exact ⟨x, hmem, hx, fun y hy hlt => hbefore y ((mem_before_iff hsplit y).mpr ⟨hy, hlt⟩)⟩
  · rintro ⟨x, hmem, hx, hfirst⟩
    obtain ⟨before, after, hsplit⟩ := List.append_of_mem hmem
    refine ⟨before, x, after, hsplit, hx, fun y hy => ?_⟩
    obtain ⟨hy, hlt⟩ := (mem_before_iff hsplit y).mp hy
    exact hfirst y hy hlt

/-- Settles O51: the pairs are sorted by their codes, so the first pair with an answer is the first match or the
first fault. -/
theorem searchReturnsTheFirstMatch : Obligations.SearchReturnsTheFirstMatch := by
  intro fuel cfg p target
  refine ⟨fun k => ?found, fun r => ?fault, ?notFound⟩
  case found =>
    rw [findInputs_eq_iff (by simp), Prod.exists]
    refine exists₂_congr fun noun verb => ?_
    simp only [mem_searchPairs_iff, pairAnswer_eq_found_iff, pairAnswer_eq_none_iff, Prod.forall, pairCode,
      FirstPair, and_imp]
    tauto
  case fault =>
    rw [findInputs_eq_iff (by simp), Prod.exists]
    refine exists₂_congr fun noun verb => ?_
    simp only [mem_searchPairs_iff, pairAnswer_eq_fault_iff, pairAnswer_eq_none_iff, Prod.forall, pairCode,
      FirstPair, and_imp, and_assoc]
  case notFound =>
    simp only [findInputs_eq_notFound_iff, mem_searchPairs_iff, pairAnswer_eq_none_iff, Prod.forall, and_imp]

end Sys2Proof.Machine
end
